-- ==== Sys2Proof/Word.lean ====
section
/-! DEFINITION. The bit vectors of the block: a memory or command byte, a coordinate operand (COORD_BITS = 16), a
command word (CMD_BITS = 80) and a device bus address (rules R7, R26, R43, R60). -/

namespace Sys2Proof

/-- One byte of `FB`, `SCRATCH`, `INIT_SEQ` or of a bus transaction (rule R43). -/
abbrev Byte := BitVec 8

/-- One operand field or operand register, 16 bits; `BitVec.toInt` is the spec's `signed16` (rules R7, R11, R20). -/
abbrev Coord := BitVec 16

/-- One host command, `CMD_BITS` = 80 bits (rules R7, R60). -/
abbrev CommandWord := BitVec 80

/-- A device bus address, 7 bits (rule R26). -/
abbrev BusAddress := BitVec 7

end Sys2Proof
end

