-- ==== Sys2Proof/Syntax.lean ====
section
/-! DEFINITION. The commands of the block: one constructor per row of the opcode table (rule R62), the fields of a
command word (rule R60) and the assembler lines of rule R71. -/

namespace Sys2Proof

/-- The six operand fields of a command word. EVERY command loads all six at acceptance (rule R61), also those it
does not use (rule R63 d), so every instruction carries them (log 15). -/
structure Operands where
  /-- field X -/
  x : Coord
  /-- field Y -/
  y : Coord
  /-- field WD -/
  w : Coord
  /-- field HT -/
  h : Coord
  /-- field ON -/
  on : Bool
  /-- field OVR -/
  ovr : Bool
  deriving DecidableEq, Repr

/-- The nine commands of rule R62. -/
inductive Instr where
  | construct (o : Operands)
  | clear (o : Operands)
  | getWidth (o : Operands)
  | getHeight (o : Operands)
  | setPixel (o : Operands)
  | clearRect (o : Operands)
  | updateFull (o : Operands)
  | updateRect (o : Operands)
  | getPixel (o : Operands)
  deriving DecidableEq, Repr

/-- The operand fields a command carries. -/
def Instr.operands : Instr → Operands
  | .construct o => o
  | .clear o => o
  | .getWidth o => o
  | .getHeight o => o
  | .setPixel o => o
  | .clearRect o => o
  | .updateFull o => o
  | .updateRect o => o
  | .getPixel o => o

/-- The fields of an 80-bit word, legal or not (rule R60). -/
structure CommandFields where
  /-- bits 79:72 -/
  opc : BitVec 8
  /-- bits 71:66, reserved -/
  rsv : BitVec 6
  /-- bits 65:0, the operand fields -/
  ops : Operands
  deriving DecidableEq, Repr

/-- A line of the assembler syntax of rule R71; operands are the numbers as written. -/
inductive AsmLine where
  | construct
  | constructAt (addr : Int)
  | clear
  | getWidth
  | getHeight
  | setPixel (x y : Int) (on : Nat)
  | clearRect (x y w h : Int) (on : Nat)
  | updateFull
  | updateRect (x y w h : Int)
  | getPixel (x y : Int)
  deriving DecidableEq, Repr

end Sys2Proof
end

