-- ==== Sys2Proof/WellFormed.lean ====
section
/-! DEFINITION. What is well formed. A term of `Instr` needs no check: its fields have exactly the widths of rule
R60, so every one of them can be encoded. Two kinds of term do need checks: the raw fields of a word, which may name
a reserved opcode or set reserved bits (rule R63), and an assembler line, whose numbers must fit their fields
(rules R20, R26, R71). -/

namespace Sys2Proof

/-- OPC is one of 0x01 to 0x09 (rules R62, R63 a). -/
def CommandFields.opcodeDefined (f : CommandFields) : Bool :=
  decide (1 ≤ f.opc.toNat) && decide (f.opc.toNat ≤ 9)

/-- The reserved flag bits are 0 (rule R63 b). -/
def CommandFields.reservedClear (f : CommandFields) : Bool := f.rsv == 0

/-- A legal encoding (rule R63). -/
def CommandFields.wellFormed (f : CommandFields) : Bool := f.opcodeDefined && f.reservedClear

/-- A coordinate operand is in the range of a 16-bit two's complement number (rule R20). -/
def coordInRange (v : Int) : Bool := decide (-32768 ≤ v) && decide (v ≤ 32767)

/-- A device address is 0 to 127 (rule R61). -/
def addressInRange (v : Int) : Bool := decide (0 ≤ v) && decide (v ≤ 127)

/-- `on` is 0 or 1 (rule R71). -/
def onInRange (v : Nat) : Bool := decide (v ≤ 1)

/-- Every number of an assembler line fits its field (rules R20, R26, R71). -/
def AsmLine.wellFormed : AsmLine → Bool
  | .construct => true
  | .constructAt a => addressInRange a
  | .clear => true
  | .getWidth => true
  | .getHeight => true
  | .setPixel x y on => coordInRange x && coordInRange y && onInRange on
  | .clearRect x y w h on => coordInRange x && coordInRange y && coordInRange w && coordInRange h && onInRange on
  | .updateFull => true
  | .updateRect x y w h => coordInRange x && coordInRange y && coordInRange w && coordInRange h
  | .getPixel x y => coordInRange x && coordInRange y

end Sys2Proof
end

