-- ==== Sys2Proof/Decode.lean ====
section
/-! DEFINITION. The decoder, total on every word and every byte string, rejecting by name (rules R60 to R63, R65),
and after it the encoder and the assembler written from the same tables (rules R60, R62, R71). -/

namespace Sys2Proof

/-- Why a word is not a command. -/
inductive DecodeError where
  /-- OPC is 0x00 or 0x0A to 0xFF (rule R63 a). Raised by `decode`; the machine answers ILLEGAL_COMMAND: safe. -/
  | reservedOpcode (opc : BitVec 8)
  /-- Bits 71:66 are not zero (rule R63 b). Raised by `decode`; the machine answers ILLEGAL_COMMAND: safe. -/
  | reservedBits (rsv : BitVec 6)
  /-- Fewer than ten bytes on the byte channel (rule R60). Raised by `decodeBytes` only: safe. -/
  | shortWord
  deriving DecidableEq, Repr

/-- The fields of a word, at the bit positions of rule R60. -/
def splitWord (w : CommandWord) : CommandFields where
  opc := w.extractLsb' 72 8
  rsv := w.extractLsb' 66 6
  ops :=
    { x := w.extractLsb' 48 16
      y := w.extractLsb' 32 16
      w := w.extractLsb' 16 16
      h := w.extractLsb' 0 16
      on := w.getLsbD 64
      ovr := w.getLsbD 65 }

/-- The command a defined opcode stands for (rule R62). -/
def instrOfOpcode (opc : BitVec 8) (o : Operands) : Option Instr :=
  match opc.toNat with
  | 1 => some (.construct o)
  | 2 => some (.clear o)
  | 3 => some (.getWidth o)
  | 4 => some (.getHeight o)
  | 5 => some (.setPixel o)
  | 6 => some (.clearRect o)
  | 7 => some (.updateFull o)
  | 8 => some (.updateRect o)
  | 9 => some (.getPixel o)
  | _ => none

/-- The decoder (rules R61 to R63, R65): the same in every state. -/
def decode (w : CommandWord) : Except DecodeError Instr :=
  if (splitWord w).rsv = 0 then
    match instrOfOpcode (splitWord w).opc (splitWord w).ops with
    | some i => .ok i
    | none => .error (.reservedOpcode (splitWord w).opc)
  else .error (.reservedBits (splitWord w).rsv)

/-- Ten bytes of the byte channel as one word, the first byte the most significant (rule R60). -/
def wordOfBytes : List Byte → Option (CommandWord × List Byte)
  | b0 :: b1 :: b2 :: b3 :: b4 :: b5 :: b6 :: b7 :: b8 :: b9 :: rest =>
    some (b0 ++ b1 ++ b2 ++ b3 ++ b4 ++ b5 ++ b6 ++ b7 ++ b8 ++ b9, rest)
  | _ => none

/-- Decoding from the byte channel: the command and the bytes after it (rule R60). -/
def decodeBytes (bs : List Byte) : Except DecodeError (Instr × List Byte) :=
  match wordOfBytes bs with
  | none => .error .shortWord
  | some (w, rest) =>
    match decode w with
    | .ok i => .ok (i, rest)
    | .error e => .error e

/-- OPC of a command (rule R62). -/
def Instr.opcode : Instr → BitVec 8
  | .construct _ => 0x01
  | .clear _ => 0x02
  | .getWidth _ => 0x03
  | .getHeight _ => 0x04
  | .setPixel _ => 0x05
  | .clearRect _ => 0x06
  | .updateFull _ => 0x07
  | .updateRect _ => 0x08
  | .getPixel _ => 0x09

/-- The fields of a command's word (rules R60, R62, R63). -/
def Instr.fields (i : Instr) : CommandFields where
  opc := i.opcode
  rsv := 0
  ops := i.operands

/-- The word with the given fields (rule R60), the opcode in the most significant byte. -/
def joinFields (f : CommandFields) : CommandWord :=
  f.opc ++ f.rsv ++ BitVec.ofBool f.ops.ovr ++ BitVec.ofBool f.ops.on ++ f.ops.x ++ f.ops.y ++ f.ops.w ++ f.ops.h

/-- The encoder: the word of a command (rules R60, R62). -/
def encode (i : Instr) : CommandWord := joinFields i.fields

/-- Byte k of a word on the byte channel is bits 79-8k : 72-8k (rule R60). -/
def byteOfWord (w : CommandWord) (k : Nat) : Byte := w.extractLsb' (72 - 8 * k) 8

/-- The ten bytes of a command on the byte channel, most significant first (rule R60). -/
def encodeBytes (i : Instr) : List Byte := (List.range 10).map (byteOfWord (encode i))

/-- Operand fields with the unused ones 0 (rule R71: "Unused fields assemble as 0"). -/
def asmOperands (x y w h : Int) (on : Nat) (ovr : Bool) : Operands where
  x := BitVec.ofInt 16 x
  y := BitVec.ofInt 16 y
  w := BitVec.ofInt 16 w
  h := BitVec.ofInt 16 h
  on := on == 1
  ovr := ovr

/-- The command an assembler line stands for (rule R71). -/
def AsmLine.assemble : AsmLine → Instr
  | .construct => .construct (asmOperands 0 0 0 0 0 false)
  | .constructAt a => .construct (asmOperands a 0 0 0 0 true)
  | .clear => .clear (asmOperands 0 0 0 0 0 false)
  | .getWidth => .getWidth (asmOperands 0 0 0 0 0 false)
  | .getHeight => .getHeight (asmOperands 0 0 0 0 0 false)
  | .setPixel x y on => .setPixel (asmOperands x y 0 0 on false)
  | .clearRect x y w h on => .clearRect (asmOperands x y w h on false)
  | .updateFull => .updateFull (asmOperands 0 0 0 0 0 false)
  | .updateRect x y w h => .updateRect (asmOperands x y w h 0 false)
  | .getPixel x y => .getPixel (asmOperands x y 0 0 0 false)

/-- The word the opcode table's numbering names: a command is ONE word of 80 bits, bit 0 its least significant
(rules R11, R60), so the number is the word; bits from `nbits` up are 0. -/
def tableWord (nbits w : Nat) : CommandWord := BitVec.ofNat 80 (w % 2 ^ nbits)

/-- What the decoder reads from an instruction whose bits, numbered as the opcode table numbers them, are `w`. -/
def decodeTableWord (nbits w : Nat) : Option Instr :=
  match decode (tableWord nbits w) with
  | .ok i => some i
  | .error _ => none

end Sys2Proof
end

