-- ==== Sys2Proof/Config.lean ====
section
/-! DEFINITION. The configuration record (rules R5, R6, R7, R29), its legal ranges (rule R5, U13), its reference
values, and the one free value of the model: the answer of the bus responder (rule R70, U8). -/

namespace Sys2Proof

/-- The parameters of the block's step, fixed before reset is released (rules R5, R6, R29, R167). -/
structure Config where
  /-- `W`, pixels in a row. -/
  width : Nat
  /-- `H`, rows; a multiple of 8. -/
  height : Nat
  /-- `MAX_TRANSFER_SIZE`, the length of the scratch buffer. -/
  mts : Nat
  /-- `DEV_ADDR_DEFAULT`. -/
  devAddrDefault : BusAddress
  /-- `REG_COMMAND`, an open parameter (D14). -/
  regCommand : Byte
  /-- `REG_DATA`, an open parameter (D14). -/
  regData : Byte
  /-- `CMD_SET_COLUMN_ADDR`, an open parameter (D14). -/
  cmdSetColumnAddr : Byte
  /-- `CMD_SET_PAGE_ADDR`, an open parameter (D14). -/
  cmdSetPageAddr : Byte
  /-- `INIT_SEQ`, a constant table (rules R40, R52, R102). -/
  initSeq : List Byte
  deriving DecidableEq, Repr

/-- `PAGES` = H / 8 (rule R5). -/
def Config.pages (c : Config) : Nat := c.height / 8

/-- `FB_BYTES` = W * H / 8 (rule R5). -/
def Config.fbBytes (c : Config) : Nat := c.width * c.height / 8

/-- `INIT_LEN` (rule R6). -/
def Config.initLen (c : Config) : Nat := c.initSeq.length

/-- The ranges of rule R5: 1 ≤ W ≤ 256, 8 ≤ H ≤ 2048 and a multiple of 8, 1 ≤ MTS ≤ 255 (D17). -/
def Config.legal (c : Config) : Bool :=
  decide (1 ≤ c.width) && decide (c.width ≤ 256) && decide (8 ≤ c.height) && decide (c.height ≤ 2048) &&
    decide (c.height % 8 = 0) && decide (1 ≤ c.mts) && decide (c.mts ≤ 255)

/-- The reference `INIT_SEQ` of rule R103. PRESUMED (general knowledge, G3; log 2). -/
def Config.referenceInitSeq : List Byte :=
  [0xAE, 0xD5, 0x80, 0xA8, 0x3F, 0xD3, 0x00, 0x40, 0x8D, 0x14, 0x20, 0x00, 0xA1] ++
    [0xC8, 0xDA, 0x12, 0x81, 0xCF, 0xD9, 0xF1, 0xDB, 0x40, 0xA4, 0xA6, 0xAF]

/-- The reference hardware: W, H, MTS and DEV_ADDR_DEFAULT from rule R5; the bus constants and `INIT_SEQ` are the
reference values of rules R6 and R103. PRESUMED (general knowledge, G2 to G4; log 2). -/
def Config.reference : Config where
  width := 128
  height := 64
  mts := 16
  devAddrDefault := 0x3C
  regCommand := 0x00
  regData := 0x40
  cmdSetColumnAddr := 0x21
  cmdSetPageAddr := 0x22
  initSeq := Config.referenceInitSeq

/-- What becomes of one bus transaction: answered `ok`, answered `err` (rule R70), or never answered (rule R10,
U11: the block then stays busy; log 5). -/
inductive Answer where
  | ok
  | err
  | never
  deriving DecidableEq, Repr, Inhabited

/-- The free value of the model (U8): the answer to the n-th transaction that the environment's list of answers does
not cover. It has no body, so nothing can be proved of it (log 4). -/
opaque Config.freeAnswer : Nat → Answer

end Sys2Proof
end

