-- ==== Sys2Proof/Machine/State.lean ====
section
/-! DEFINITION. Every piece of state the spec gives the block (10_state.md, rules R20 to R31), the interfaces to the
host and to the bus responder (rules R8, R64 to R70), the reasons a step can stop, and the state after reset. -/

namespace Sys2Proof.Machine

/-- A byte memory: (index, byte) pairs, indexes strictly rising. An index that is not listed holds no value: nothing
has written it since reset (rules R21, R22, R31; log 8). -/
abbrev Memory := List Host.Cell

/-- `STATE`, the controller's state machine (rule R25). -/
inductive Lifecycle where
  | uninit
  | initializing
  | ready
  | failed
  deriving DecidableEq, Repr

/-- The status of a response (rules R66, R145). Codes 5 to 15 are never produced (U7). -/
inductive Status where
  | ok
  | invalidArgument
  | transportError
  | badState
  | illegalCommand
  deriving DecidableEq, Repr

/-- One response (rule R66). -/
structure Response where
  status : Status
  data : BitVec 16
  deriving DecidableEq, Repr

/-- A bus transaction record (rules R68, R69). -/
inductive Transaction where
  /-- `BusByte(reg, value)` -/
  | byte (dev : BusAddress) (reg value : Byte)
  /-- `BusBuf(reg, payload)`; `length` is the 8-bit length field -/
  | buf (dev : BusAddress) (reg length : Byte) (payload : List Byte)
  deriving DecidableEq, Repr

/-- A transaction of the trace with what became of it (rules R9, R180). -/
structure TraceEntry where
  tx : Transaction
  answer : Answer
  deriving DecidableEq, Repr

/-- What the host does next (rules R8 a, R64, R165). -/
inductive Input where
  /-- the host presents a command word at the command port -/
  | command (word : CommandWord)
  /-- the reset input is applied and released -/
  | reset
  /-- the host presents a command word, and reset is applied while it executes, after `answered` of its transactions
  have been issued and answered: before its first one, between two of them, or after the last one and before the
  response (rule R165; log 7) -/
  | resetDuring (word : CommandWord) (answered : Nat)
  deriving DecidableEq, Repr

/-- The state of the machine. INVENTORY.md, "State", lists every field with its rule and reset value. -/
structure State where
  /-- the configuration; no step changes it (rules R5, R6, R29, R167; log 2) -/
  cfg : Config
  /-- `FB` (rule R21) -/
  fb : Memory
  /-- `SCRATCH` (rule R22) -/
  scratch : Memory
  /-- `SIDX` (rule R22) -/
  sidx : Nat
  /-- `STATE` (rule R25) -/
  mode : Lifecycle
  /-- `DEV_ADDR` (rule R26) -/
  devAddr : BusAddress
  /-- `RESP.status` (rule R27) -/
  respStatus : Status
  /-- `RESP.data` (rule R27) -/
  respData : BitVec 16
  /-- the response of the last completed command stands at the response port (rules R31, R66, R165; log 10) -/
  respPending : Bool
  /-- the command port is busy: a command is executing (rules R51, R64) -/
  busy : Bool
  /-- `OPX` = x[0] (rule R20) -/
  opx : Coord
  /-- `OPY` = x[1] (rule R20) -/
  opy : Coord
  /-- `OPW` = x[2] (rule R20) -/
  opw : Coord
  /-- `OPH` = x[3] (rule R20) -/
  oph : Coord
  /-- `OPON` (rule R20) -/
  opon : Bool
  /-- `OPOVR` (rule R20) -/
  opovr : Bool
  /-- `SEQ_IDX` (rule R23) -/
  seqIdx : Nat
  /-- `PAGE` (rule R23) -/
  page : Nat
  /-- `COL` (rule R23) -/
  col : Nat
  /-- `START_COL` (rule R24) -/
  startCol : Byte
  /-- `END_COL` (rule R24) -/
  endCol : Byte
  /-- `START_PAGE` (rule R24) -/
  startPage : Byte
  /-- `END_PAGE` (rule R24) -/
  endPage : Byte
  /-- what the host will do next, oldest first (rules R8, R180; log 6) -/
  inputs : List Input
  /-- what the bus responder will answer, oldest first (rules R9, R70; log 4) -/
  answers : List Answer
  /-- how many answers were drawn from `Config.freeAnswer` (the model's own; log 4) -/
  draws : Nat
  /-- the transactions issued so far, oldest first (rules R9, R180; log 11) -/
  trace : List TraceEntry
  /-- the responses produced so far, oldest first (rules R66, R180; log 11) -/
  responses : List Response
  deriving DecidableEq, Repr

/-- Why a step stops with a fault. -/
inductive Fault where
  /-- A command reads the byte of `FB` at this index and nothing has written it since reset (rule R31: "a read of it
  before a write is a fault of the model"). Raised by SET_PIXEL, CLEAR_RECT, GET_PIXEL and the updates. Safe: rule
  R32 says that it cannot happen, and the model states that as an obligation. -/
  | unwrittenFramebuffer (index : Nat)
  /-- A flush reads a byte of `SCRATCH` that nothing has written since reset (rules R31, R32 item 3). Raised by the
  updates. Safe: it cannot happen. -/
  | unwrittenScratch
  deriving DecidableEq, Repr

/-- Why a step is refused. -/
inductive Refusal where
  /-- An instruction without a meaning. Raised by no arm of `exec` in this model. Safe. -/
  | notModelled (mnemonic : String)
  /-- The configuration is outside the ranges of rule R5 (U13: "refuse"). Raised by `step`. Safe. -/
  | configOutOfRange
  deriving DecidableEq, Repr

/-- The state right after reset (rules R31, R165) of the reference hardware (rule R5; log 2). What rule R31 calls
unspecified: `FB` and `SCRATCH` list nothing (log 8); the transient registers hold 0 (DESIGN CHOICE, unsafe; log 9). -/
def State.reset : State where
  cfg := Config.reference
  fb := []
  scratch := []
  sidx := 0
  mode := .uninit
  devAddr := 0x3C
  respStatus := .ok
  respData := 0
  respPending := false
  busy := false
  opx := 0
  opy := 0
  opw := 0
  oph := 0
  opon := false
  opovr := false
  seqIdx := 0
  page := 0
  col := 0
  startCol := 0
  endCol := 0
  startPage := 0
  endPage := 0
  inputs := []
  answers := []
  draws := 0
  trace := []
  responses := []

end Sys2Proof.Machine
end

