-- ==== Sys2Proof/Machine/Ops.lean ====
section
/-! DEFINITION. The shared operations: the byte memories (rules R40, R45), the response and the ending of a command
by an error (rules R66, R145, R154), reset (rule R165), the command port (rule R64), and one bus transaction
(rules R68 to R70). -/

namespace Sys2Proof.Machine

/-! ## Byte memories -/

/-- `MemRead(space, i, 1)` (rule R11); `none` where nothing has written the byte (rule R31). -/
def memRead : Memory → Nat → Option Byte
  | [], _ => none
  | (a, v) :: rest, i => if a = i then some v else memRead rest i

/-- `MemWrite(space, i, 1, v)` (rule R11), keeping the indexes rising. -/
def memWrite : Memory → Nat → Byte → Memory
  | [], i, v => [(i, v)]
  | (a, u) :: rest, i, v =>
    if i < a then (i, v) :: (a, u) :: rest
    else if a = i then (i, v) :: rest
    else (a, u) :: memWrite rest i v

/-- The bytes at `start`, `start + 1`, … (`n` of them), or `none` where one of them is unwritten. -/
def memReadRange (m : Memory) : Nat → Nat → Option (List Byte)
  | _, 0 => some []
  | start, n + 1 =>
    match memRead m start, memReadRange m (start + 1) n with
    | some v, some vs => some (v :: vs)
    | _, _ => none

/-- `n` zero bytes from index `start` on. -/
def memZerosFrom (start : Nat) : Nat → Memory
  | 0 => []
  | n + 1 => (start, 0) :: memZerosFrom (start + 1) n

/-- A memory of `n` bytes, all 0x00: what writing 0x00 to every index leaves (rules R80, R100; log 14). -/
def memZeros (n : Nat) : Memory := memZerosFrom 0 n

/-- The canonical form of a memory of `size` bytes: indexes strictly rising and below `size`. An unlisted index has
no value, so no entry can equal what an unlisted one reads as. -/
def Memory.wf (size : Nat) : Memory → Bool
  | [] => true
  | [(a, _)] => decide (a < size)
  | (a, _) :: (b, v) :: rest => decide (a < b) && Memory.wf size ((b, v) :: rest)

/-- Every byte of the memory has been written. -/
def memWritten (size : Nat) (m : Memory) : Bool := (List.range size).all fun i => (memRead m i).isSome

/-! ## Acceptance, responses, errors, reset -/

/-- Acceptance of a command word (rules R61, R64): the operand registers are loaded from the word's fields, the port
becomes busy, and no response stands at the response port any more (log 10). -/
def accept (o : Operands) (s : State) : State :=
  { s with opx := o.x, opy := o.y, opw := o.w, oph := o.h, opon := o.on, opovr := o.ovr,
           busy := true, respPending := false }

/-- A command ends with a response (rules R27, R66): it is latched in `RESP` and the port becomes ready. -/
def respond (st : Status) (data : BitVec 16) (s : State) : State :=
  { s with respStatus := st, respData := data, respPending := true, busy := false,
           responses := s.responses ++ [⟨st, data⟩] }

/-- `raise <Error>` (rules R145, R154): the command ends here with the response (code, 0) and nothing else changes.
This is the block's whole error entry; rule R155: nothing has to be acknowledged, so there is no return from it. -/
def raise (e : Status) (s : State) : State := respond e 0 s

/-- An accepted word that is not a legal encoding (rules R63 c, R149): the operand registers are loaded, the answer
is ILLEGAL_COMMAND. -/
def illegalCommand (w : CommandWord) (s : State) : State := raise .illegalCommand (accept (splitWord w).ops s)

/-- Reset (rule R165), between commands or while the port is busy: no response is produced, what was issued
stays issued, `FB`, `SCRATCH` and the transient registers become unspecified (log 8, log 9); inside a command it is
`abandon`. The configuration and the environment's side of the interfaces are not the block's to reset. -/
def resetBlock (s : State) : State :=
  { State.reset with cfg := s.cfg, inputs := s.inputs, answers := s.answers, draws := s.draws,
                     trace := s.trace, responses := s.responses }

/-- `s` after `n` answers were taken (rule R9; log 4): the list first, then draws of the free value. -/
def State.spent (s : State) (n : Nat) : State :=
  { s with answers := s.answers.drop n, draws := s.draws + (n - s.answers.length) }

/-- Reset of a command that is executing, after `k` of its transactions were issued and answered (rule R165; log 7).
`s` is the state in which its word was accepted, `t` the one in which the command would have ended. The first `k`
transactions stay issued, their answers stay taken, and no response is produced. A command that issues fewer than `k`
has ended, or waits for an answer, before reset comes. -/
def abandon (k : Nat) (s t : State) : State :=
  let issued := t.trace.drop s.trace.length
  if k ≤ issued.length then resetBlock { s.spent k with trace := s.trace ++ issued.take k } else resetBlock t

/-- What the step finds at its inputs (rules R64, R165, R180). -/
inductive Fetched where
  /-- nothing to do: no input, or a word presented to a busy port and no reset -/
  | wait
  /-- reset is applied -/
  | reset (s : State)
  /-- the port accepts this word -/
  | word (w : CommandWord) (s : State)
  /-- the port accepts this word, and reset is applied after `answered` of its transactions -/
  | interrupted (w : CommandWord) (answered : Nat) (s : State)
  deriving DecidableEq, Repr

/-- The command port and the reset input: a command is accepted when, and only when, no command is executing (rule
R64). Reset is taken at any time (rule R165), so at a busy port also when words wait before it; they go on being
presented (log 18). -/
def fetch (s : State) : Fetched :=
  if s.busy then
    if .reset ∈ s.inputs then .reset { s with inputs := s.inputs.erase .reset } else .wait
  else
    match s.inputs with
    | [] => .wait
    | .reset :: rest => .reset { s with inputs := rest }
    | .command w :: rest => .word w { s with inputs := rest }
    | .resetDuring w k :: rest => .interrupted w k { s with inputs := rest }

/-! ## The bus -/

/-- The answer to the next transaction and the state in which it has been taken (rules R9, R70; log 4): the
environment's list first, then the free value. -/
def takeAnswer (s : State) : Answer × State :=
  match s.answers with
  | a :: rest => (a, { s with answers := rest })
  | [] => (Config.freeAnswer s.draws, { s with draws := s.draws + 1 })

/-- Issue one transaction (rules R68 to R70, R178): it joins the trace, once, with what became of it. -/
def issue (t : Transaction) (s : State) : Answer × State :=
  let (a, s') := takeAnswer s
  (a, { s' with trace := s'.trace ++ [⟨t, a⟩] })

/-- A part of a running command: it goes on, raises an error, waits for ever for an answer (rule R10, U11), or stops
the model (rule R31). -/
inductive Flow where
  | run (s : State)
  | raised (e : Status) (s : State)
  | hung (s : State)
  | fault (f : Fault)
  deriving DecidableEq, Repr

/-- Go on with `k` unless the command has ended. -/
def Flow.andThen (f : Flow) (k : State → Flow) : Flow :=
  match f with
  | .run s => k s
  | .raised e s => .raised e s
  | .hung s => .hung s
  | .fault x => .fault x

/-- The end of a command: `return (OK, 0)`, or its error, or a port that stays busy (log 5). -/
def Flow.finish (f : Flow) : Host.Outcome State Fault Refusal :=
  match f with
  | .run s => .next (respond .ok 0 s)
  | .raised e s => .next (raise e s)
  | .hung s => .next s
  | .fault x => .fault x

/-- The idiom `Bus…(…)?` (rule R11): on `err` the command raises `TransportError` at once. -/
def transact (t : Transaction) (s : State) : Flow :=
  match issue t s with
  | (.ok, s') => .run s'
  | (.err, s') => .raised .transportError s'
  | (.never, s') => .hung s'

end Sys2Proof.Machine
end

