-- ==== Sys2Proof/Machine/Operands.lean ====
section
/-! DEFINITION. The addressing of the block: the bounds check and the bit indexer (rules R41, R83, R84), the column
and page window (rules R24, R118), and the bytes a window names (rule R133). All arithmetic is over the integers
(rules R11, R88, R120). -/

namespace Sys2Proof.Machine

/-- `InRange(x, y)` on the signed values (rule R84). -/
def inRange (c : Config) (x y : Int) : Bool :=
  decide (0 ≤ x) && decide (x < c.width) && decide (0 ≤ y) && decide (y < c.height)

/-- `idx` of `PixelAddr(x, y)` (rules R41, R83). -/
def pixelIndex (c : Config) (x y : Int) : Nat := (x + y / 8 * c.width).toNat

/-- `b` of `PixelAddr(x, y)` (rules R41, R83). -/
def pixelBit (y : Int) : Nat := (y % 8).toNat

/-- The byte `1 << b` (rule R11). -/
def bitMask (b : Nat) : Byte := 1#8 <<< b

/-- The read-modify-write of rule R84 on the bits of `mask`: set them when `on`, else clear them. -/
def applyOn (on : Bool) (mask old : Byte) : Byte := if on then old ||| mask else old &&& ~~~mask

/-- `pixel(x, y)` (rule R41): one bit of `FB`, `none` where its byte is unwritten. -/
def pixelOf (c : Config) (fb : Memory) (x y : Int) : Option Bool :=
  (memRead fb (pixelIndex c x y)).map fun v => v.getLsbD (pixelBit y)

/-- The index of the byte at page `p`, column `col` (rules R46, R130). -/
def byteIndex (c : Config) (p col : Nat) : Nat := p * c.width + col

/-- The window computation of rule R118, from the operand registers of an accepted rectangle. -/
def computeWindow (s : State) : State :=
  { s with
    startCol := BitVec.ofInt 8 s.opx.toInt
    endCol := BitVec.ofInt 8 (s.opx.toInt + s.opw.toInt - 1)
    startPage := BitVec.ofInt 8 (s.opy.toInt / 8)
    endPage := BitVec.ofInt 8 ((s.opy.toInt + s.oph.toInt - 1) / 8) }

/-- The operand registers of UPDATE_FULL (rule R115): (0, 0, W, H). -/
def loadWholeSurface (s : State) : State :=
  { s with opx := 0, opy := 0, opw := BitVec.ofNat 16 s.cfg.width, oph := BitVec.ofNat 16 s.cfg.height }

end Sys2Proof.Machine
end

