-- ==== Sys2Proof/Machine/Flags.lean ====
section
/-! DEFINITION. The block has no flags (rule R28). What stands in their place is written here: the numbers of STATE
and of the status as the host sees them (rules R25, R66, R67), the state gate (rule R150) and the validation of an
update rectangle (rule R117). -/

namespace Sys2Proof.Machine

/-- The 2-bit code of `STATE` (rule R25). -/
def Lifecycle.code : Lifecycle → BitVec 2
  | .uninit => 0
  | .initializing => 1
  | .ready => 2
  | .failed => 3

/-- The 4-bit code of a status (rules R66, R145). -/
def Status.code : Status → BitVec 4
  | .ok => 0
  | .invalidArgument => 1
  | .transportError => 2
  | .badState => 3
  | .illegalCommand => 4

/-- The `state[1:0]` output (rule R67). -/
def stateOutput (s : State) : BitVec 2 := s.mode.code

/-- The `cmd_ready` output (rule R64). -/
def cmdReady (s : State) : Bool := !s.busy

/-- The `rsp_status[3:0]` output (rule R66). -/
def rspStatus (s : State) : BitVec 4 := s.respStatus.code

/-- The state gate (rule R150): CONSTRUCT runs in UNINIT, every other command in READY. In INITIALIZING no command
can be presented; none is callable there (log 17). -/
def callable (i : Instr) (m : Lifecycle) : Bool :=
  match i with
  | .construct _ => m == .uninit
  | .clear _ => m == .ready
  | .getWidth _ => m == .ready
  | .getHeight _ => m == .ready
  | .setPixel _ => m == .ready
  | .clearRect _ => m == .ready
  | .updateFull _ => m == .ready
  | .updateRect _ => m == .ready
  | .getPixel _ => m == .ready

/-- Acceptance, then the state gate, then the command's body (rules R61, R150, R153). -/
def gated (i : Instr) (body : State → Host.Outcome State Fault Refusal) (s : State) :
    Host.Outcome State Fault Refusal :=
  if callable i s.mode then body (accept i.operands s) else .next (raise .badState (accept i.operands s))

/-- `Reject(x, y, w, h)`: the eight tests with exactly these operators (rule R117). -/
def rejects (c : Config) (x y w h : Int) : Bool :=
  decide (x < 0) || decide (x > c.width) || decide (y < 0) || decide (y > c.height) || decide (w ≤ 0) ||
    decide (h ≤ 0) || decide (x + w > c.width) || decide (y + h > c.height)

end Sys2Proof.Machine
end

