-- ==== Sys2Proof/Machine/ChunkedTransferEngine.lean ====
section
/-! DEFINITION. Unit chunked_transfer_engine: the procedures Flush, Append and Stream
(43_chunked_transfer_engine.md, rules R130 to R132). -/

namespace Sys2Proof.Machine

/-- The transaction of `BusBuf(REG_DATA, bytes)` (rules R69, R132). -/
def dataBufTx (s : State) (bytes : List Byte) : Transaction :=
  .buf s.devAddr s.cfg.regData (BitVec.ofNat 8 bytes.length) bytes

/-- `Flush()` (rule R132): one buffer write of `SCRATCH[0 .. SIDX-1]`; `SIDX` is reset only after the answer `ok`. -/
def flush (s : State) : Flow :=
  match memReadRange s.scratch 0 s.sidx with
  | none => .fault .unwrittenScratch
  | some bytes => (transact (dataBufTx s bytes) s).andThen fun s => .run { s with sidx := 0 }

/-- `Append(v)` (rule R131). -/
def append (v : Byte) (s : State) : Flow :=
  let s := { s with scratch := memWrite s.scratch s.sidx v, sidx := s.sidx + 1 }
  if s.sidx = s.cfg.mts then flush s else .run s

/-- The inner loop of rule R130 with `n` columns to go, `COL` being the next one. -/
def streamCols : Nat → State → Flow
  | 0, s => .run s
  | n + 1, s =>
    match memRead s.fb (byteIndex s.cfg s.page s.col) with
    | none => .fault (.unwrittenFramebuffer (byteIndex s.cfg s.page s.col))
    | some v => (append v s).andThen fun s => streamCols n { s with col := s.col + 1 }

/-- The outer loop of rule R130 with `n` pages to go, `PAGE` being the next one. -/
def streamPages : Nat → State → Flow
  | 0, s => .run s
  | n + 1, s =>
    (streamCols (s.endCol.toNat + 1 - s.startCol.toNat) { s with col := s.startCol.toNat }).andThen fun s =>
      streamPages n { s with page := s.page + 1 }

/-- The final, possibly short, chunk of rule R130; an empty chunk is never sent. -/
def flushRest (s : State) : Flow := if s.sidx > 0 then flush s else .run s

/-- `Stream()` (rule R130). -/
def stream (s : State) : Flow :=
  (streamPages (s.endPage.toNat + 1 - s.startPage.toNat) { s with sidx := 0, page := s.startPage.toNat }).andThen
    flushRest

end Sys2Proof.Machine
end

