-- ==== Sys2Proof/Machine/RegisterCommandSequencer.lean ====
section
/-! DEFINITION. Unit register_command_sequencer: CONSTRUCT and the procedures CmdByte and SetWindow
(41_register_command_sequencer.md, rules R100, R101, R104). -/

namespace Sys2Proof.Machine

/-- The transaction of `BusByte(REG_COMMAND, v)` (rules R68, R101). -/
def commandByteTx (s : State) (v : Byte) : Transaction := .byte s.devAddr s.cfg.regCommand v

/-- `CmdByte(v)` (rule R101). -/
def cmdByte (v : Byte) (s : State) : Flow := transact (commandByteTx s v) s

/-- `SetWindow()`: six command bytes in this order, read from the window registers (rule R104). -/
def setWindow (s : State) : Flow :=
  (cmdByte s.cfg.cmdSetColumnAddr s).andThen fun s =>
  (cmdByte s.startCol s).andThen fun s =>
  (cmdByte s.endCol s).andThen fun s =>
  (cmdByte s.cfg.cmdSetPageAddr s).andThen fun s =>
  (cmdByte s.startPage s).andThen fun s =>
  cmdByte s.endPage s

/-- The loop of rule R100 over the bytes of `INIT_SEQ` from `SEQ_IDX` on, and the end of CONSTRUCT: READY, or FAILED
at the first `err`. A byte that is never answered leaves the port busy in INITIALIZING (rule R10, U11; log 5). -/
def sendInit : List Byte → State → State
  | [], s => respond .ok 0 { s with mode := .ready }
  | v :: rest, s =>
    match issue (commandByteTx s v) s with
    | (.ok, s') => sendInit rest { s' with seqIdx := s'.seqIdx + 1 }
    | (.err, s') => raise .transportError { s' with mode := .failed }
    | (.never, s') => s'

/-- The first half of rule R100: INITIALIZING, the device address, the clear, `SEQ_IDX <- 0`. -/
def beginConstruct (s : State) : State :=
  { s with
    mode := .initializing
    devAddr := if s.opovr then s.opx.extractLsb' 0 7 else s.cfg.devAddrDefault
    fb := memZeros s.cfg.fbBytes
    seqIdx := 0 }

/-- CONSTRUCT (rule R100). -/
def execConstruct (o : Operands) (s : State) : Host.Outcome State Fault Refusal :=
  gated (.construct o) (fun s => .next (sendInit s.cfg.initSeq (beginConstruct s))) s

end Sys2Proof.Machine
end

