-- ==== Sys2Proof/Machine/DisplayWindowController.lean ====
section
/-! DEFINITION. Unit display_window_controller: UPDATE_FULL and UPDATE_RECT
(42_display_window_controller.md, rules R115, R116). -/

namespace Sys2Proof.Machine

/-- The body of both updates (rule R116), from the operand registers: validation before any bus transaction and
before the window registers are written (rules R146, R153), then the window, the six command bytes, the stream. -/
def updateRectangle (s : State) : Host.Outcome State Fault Refusal :=
  if rejects s.cfg s.opx.toInt s.opy.toInt s.opw.toInt s.oph.toInt then .next (raise .invalidArgument s)
  else ((setWindow (computeWindow s)).andThen stream).finish

/-- UPDATE_FULL (rule R115). -/
def execUpdateFull (o : Operands) (s : State) : Host.Outcome State Fault Refusal :=
  gated (.updateFull o) (fun s => updateRectangle (loadWholeSurface s)) s

/-- UPDATE_RECT (rule R116). -/
def execUpdateRect (o : Operands) (s : State) : Host.Outcome State Fault Refusal :=
  gated (.updateRect o) updateRectangle s

end Sys2Proof.Machine
end

