-- ==== Sys2Proof/Machine/FramebufferBitIndexer.lean ====
section
/-! DEFINITION. Unit framebuffer_bit_indexer: CLEAR, GET_WIDTH, GET_HEIGHT, SET_PIXEL, CLEAR_RECT, GET_PIXEL
(40_framebuffer_bit_indexer.md, rules R80 to R87). -/

namespace Sys2Proof.Machine

/-- The internal procedure `SetPixel(x, y, on)` on `FB` (rule R84). -/
def drawPixel (c : Config) (x y : Int) (on : Bool) (fb : Memory) : Except Fault Memory :=
  if inRange c x y then
    match memRead fb (pixelIndex c x y) with
    | some old => .ok (memWrite fb (pixelIndex c x y) (applyOn on (bitMask (pixelBit y)) old))
    | none => .error (.unwrittenFramebuffer (pixelIndex c x y))
  else .ok fb

/-- The inner loop of rule R86: `n` pixels of row `y`, from column `x` on. -/
def drawRow (c : Config) (y : Int) (on : Bool) : Nat → Int → Memory → Except Fault Memory
  | 0, _, fb => .ok fb
  | n + 1, x, fb =>
    match drawPixel c x y on fb with
    | .ok fb' => drawRow c y on n (x + 1) fb'
    | .error f => .error f

/-- The two loops of rule R86 as written: `h` rows of `w` pixels, from (x, y) on. The machine runs the closed form
`drawRect`; this is what it is held against (log 13). -/
def drawRectLoop (c : Config) (x : Int) (w : Nat) (on : Bool) : Nat → Int → Memory → Except Fault Memory
  | 0, _, fb => .ok fb
  | h + 1, y, fb =>
    match drawRow c y on w x fb with
    | .ok fb' => drawRectLoop c x w on h (y + 1) fb'
    | .error f => .error f

/-- The bits of a byte whose top row is `top` that lie in rows y to y+h-1 (rules R41, R86). -/
def rowsMask (y h : Int) (top : Nat) : Byte :=
  (List.range 8).foldl
    (fun m b => if y ≤ (top + b : Nat) ∧ ((top + b : Nat) : Int) < y + h then m ||| bitMask b else m) 0

/-- The bits of byte `i` of `FB` that lie in the rectangle (rules R41, R86). -/
def rectMask (c : Config) (x y w h : Int) (i : Nat) : Byte :=
  if x ≤ (i % c.width : Nat) ∧ ((i % c.width : Nat) : Int) < x + w then rowsMask y h (8 * (i / c.width)) else 0

/-- The first byte of `FB` that the rectangle touches and nothing has written. -/
def rectUnwritten (c : Config) (x y w h : Int) (fb : Memory) : Option Nat :=
  (List.range c.fbBytes).find? fun i => rectMask c x y w h i != 0 && (memRead fb i).isNone

/-- CLEAR_RECT on `FB` in the closed form of rule R86: every in-range pixel of the rectangle becomes `on`, every other
bit stays (log 13). -/
def drawRect (c : Config) (x y w h : Int) (on : Bool) (fb : Memory) : Except Fault Memory :=
  match rectUnwritten c x y w h fb with
  | some i => .error (.unwrittenFramebuffer i)
  | none => .ok (fb.map fun cell => (cell.1, applyOn on (rectMask c x y w h cell.1) cell.2))

/-- `return (OK, 0)` after a drawing command. -/
def finishDraw (r : Except Fault Memory) (s : State) : Host.Outcome State Fault Refusal :=
  match r with
  | .ok fb => .next (respond .ok 0 { s with fb := fb })
  | .error f => .fault f

/-- CLEAR (rule R80). -/
def execClear (o : Operands) (s : State) : Host.Outcome State Fault Refusal :=
  gated (.clear o) (fun s => .next (respond .ok 0 { s with fb := memZeros s.cfg.fbBytes })) s

/-- GET_WIDTH (rule R81). -/
def execGetWidth (o : Operands) (s : State) : Host.Outcome State Fault Refusal :=
  gated (.getWidth o) (fun s => .next (respond .ok (BitVec.ofNat 16 s.cfg.width) s)) s

/-- GET_HEIGHT (rule R82). -/
def execGetHeight (o : Operands) (s : State) : Host.Outcome State Fault Refusal :=
  gated (.getHeight o) (fun s => .next (respond .ok (BitVec.ofNat 16 s.cfg.height) s)) s

/-- SET_PIXEL (rule R85): an out-of-range pixel is ignored, with status OK (rule R148). -/
def execSetPixel (o : Operands) (s : State) : Host.Outcome State Fault Refusal :=
  gated (.setPixel o) (fun s => finishDraw (drawPixel s.cfg s.opx.toInt s.opy.toInt s.opon s.fb) s) s

/-- CLEAR_RECT (rule R86): no validation, unlike the updates. -/
def execClearRect (o : Operands) (s : State) : Host.Outcome State Fault Refusal :=
  gated (.clearRect o)
    (fun s => finishDraw (drawRect s.cfg s.opx.toInt s.opy.toInt s.opw.toInt s.oph.toInt s.opon s.fb) s) s

/-- The body of GET_PIXEL (rule R87): an out-of-range pixel reads 0. -/
def readPixel (s : State) : Host.Outcome State Fault Refusal :=
  if inRange s.cfg s.opx.toInt s.opy.toInt then
    match memRead s.fb (pixelIndex s.cfg s.opx.toInt s.opy.toInt) with
    | some v => .next (respond .ok ((BitVec.ofBool (v.getLsbD (pixelBit s.opy.toInt))).setWidth 16) s)
    | none => .fault (.unwrittenFramebuffer (pixelIndex s.cfg s.opx.toInt s.opy.toInt))
  else .next (respond .ok 0 s)

/-- GET_PIXEL (rule R87). -/
def execGetPixel (o : Operands) (s : State) : Host.Outcome State Fault Refusal :=
  gated (.getPixel o) readPixel s

end Sys2Proof.Machine
end

