-- ==== Sys2Proof/Machine/Dispatch.lean ====
section
/-! DEFINITION. One arm per command of the opcode table (rule R62). -/

namespace Sys2Proof.Machine

def exec (i : Instr) (s : State) : Host.Outcome State Fault Refusal :=
  match i with
  | .construct o => Sys2Proof.Machine.execConstruct o s
  | .clear o => Sys2Proof.Machine.execClear o s
  | .getWidth o => Sys2Proof.Machine.execGetWidth o s
  | .getHeight o => Sys2Proof.Machine.execGetHeight o s
  | .setPixel o => Sys2Proof.Machine.execSetPixel o s
  | .clearRect o => Sys2Proof.Machine.execClearRect o s
  | .updateFull o => Sys2Proof.Machine.execUpdateFull o s
  | .updateRect o => Sys2Proof.Machine.execUpdateRect o s
  | .getPixel o => Sys2Proof.Machine.execGetPixel o s

end Sys2Proof.Machine
end

