-- ==== Sys2Proof/Machine/Step.lean ====
section
/-! DEFINITION. One step of the machine (rules R8, R9, R64, R165, R180): one accepted command word, also one cut
short by reset, or one reset, or a step in which the block waits. -/

namespace Sys2Proof.Machine

/-- A legal word runs its command; any other word is answered ILLEGAL_COMMAND (rules R63, R149, R153). -/
def runWord (w : CommandWord) (s : State) : Host.Outcome State Fault Refusal :=
  match decode w with
  | .ok i => exec i s
  | .error _ => .next (illegalCommand w s)

/-- A word whose execution is cut short by reset after `k` of its transactions (rule R165; log 7). -/
def runInterrupted (w : CommandWord) (k : Nat) (s : State) : Host.Outcome State Fault Refusal :=
  match runWord w s with
  | .next t => .next (abandon k s t)
  | .fault f => .fault f
  | .refused r => .refused r

/-- One step. A configuration outside the ranges of rule R5 is refused (U13; log 3). -/
def step (s : State) : Host.Outcome State Fault Refusal :=
  if s.cfg.legal then
    match fetch s with
    | .wait => .next s
    | .reset s' => .next (resetBlock s')
    | .word w s' => runWord w s'
    | .interrupted w k s' => runInterrupted w k s'
  else .refused .configOutOfRange

/-- `s` with the host presenting this word next and the port ready to take it (log 6). -/
def State.withFetchWord (s : State) (nbits w : Nat) : State :=
  { s with inputs := .command (tableWord nbits w) :: s.inputs, busy := false }

end Sys2Proof.Machine
end

