-- ==== Sys2Proof/Machine/Device.lean ====
section
/-! DEFINITION. The environment assumption of rule R47: what the device at the far end of the bus does with the
transactions of the trace. It is no state of the block (rule R30) and no step reads it; end-to-end statements are
made over it (D27; log 16, log 19 to log 21). -/

namespace Sys2Proof.Machine

/-- The device of rule R47: its display RAM in the layout of `FB`, its window and its cursor; `recent` holds the
command bytes it received, newest first. -/
structure Device where
  ram : Memory
  startCol : Nat
  endCol : Nat
  startPage : Nat
  endPage : Nat
  page : Nat
  col : Nat
  recent : List Byte
  deriving DecidableEq, Repr

/-- The last six command bytes were the addressing sequence of rule R104: the window they name, oldest first. -/
def windowOf (c : Config) (recent : List Byte) : Option (Byte × Byte × Byte × Byte) :=
  match recent with
  | ep :: sp :: cp :: ec :: sc :: cc :: _ =>
    if cc = c.cmdSetColumnAddr ∧ cp = c.cmdSetPageAddr then some (sc, ec, sp, ep) else none
  | _ => none

/-- A command byte received: after the six bytes of rule R104 the cursor is at (START_PAGE, START_COL) (rule R47).
DESIGN CHOICE (log 20): no other command byte has an effect. Rule R47 needs the device to have received the init
sequence with the horizontal addressing mode selected; this device is in that mode from any start and whatever
`INIT_SEQ` holds, which R47, N12, N22 and U10 leave open. -/
def deviceCommand (c : Config) (v : Byte) (d : Device) : Device :=
  match windowOf c (v :: d.recent) with
  | some (sc, ec, sp, ep) =>
    { d with recent := v :: d.recent, startCol := sc.toNat, endCol := ec.toNat, startPage := sp.toNat,
             endPage := ep.toNat, page := sp.toNat, col := sc.toNat }
  | none => { d with recent := v :: d.recent }

/-- A data byte received: stored at the cursor, which moves along the columns and then to the next page (rule R47).
The device is in the horizontal addressing mode from any start (DESIGN CHOICE, log 20).
DESIGN CHOICE (log 19): past END_PAGE, which R47, N12 and U10 leave open, the page goes on to END_PAGE + 1 and further
bytes are stored there. -/
def deviceStore (c : Config) (v : Byte) (d : Device) : Device :=
  let d' := { d with ram := memWrite d.ram (byteIndex c d.page d.col) v }
  if d.col < d.endCol then { d' with col := d.col + 1 } else { d' with col := d.startCol, page := d.page + 1 }

/-- Data bytes received in order. -/
def deviceStoreAll (c : Config) : List Byte → Device → Device
  | [], d => d
  | v :: vs, d => deviceStoreAll c vs (deviceStore c v d)

/-- What the device does with one entry of the trace. A transaction answered `ok` reached it whole; of any other, the
first `taken` bytes did (U9: any number of them). It is the device at the address the transaction carries (log 20).
DESIGN CHOICE (log 21): a failed transaction disturbs nothing else. U1 lets every byte of a failed window, and U12 the
whole device after a reset inside a command, have any value; this device keeps what it took of the transactions before,
and every byte that was not sent stays as it was. -/
def deviceReceive (c : Config) (taken : Nat) (e : TraceEntry) (d : Device) : Device :=
  match e.tx with
  | .byte _ reg v =>
    if reg = c.regCommand ∧ (e.answer = .ok ∨ 0 < taken) then deviceCommand c v d else d
  | .buf _ reg _ payload =>
    if reg = c.regData then
      deviceStoreAll c (if e.answer = .ok then payload else payload.take taken) d
    else d

/-- What the device does with a trace; `taken k` belongs to its k-th entry. -/
def deviceReceiveAll (c : Config) (taken : Nat → Nat) : Nat → List TraceEntry → Device → Device
  | _, [], d => d
  | k, e :: es, d => deviceReceiveAll c taken (k + 1) es (deviceReceive c (taken k) e d)

end Sys2Proof.Machine
end

