-- ==== Sys2Proof/Safety.lean ====
section
/-! DEFINITION. The terms in which statements about the machine are made: the next state a rule gives, written as one
record; what the bus responder answers; the window, the byte stream and the chunks of an update as rules R119, R133
and R134 give them; the invariant of rule R32. No definition here is used by the machine. -/

namespace Sys2Proof.Machine

/-! ## Next states -/

/-- `s` after a command word with operand fields `o` was accepted: the operand registers hold them (rule R61), the
port is busy, no response stands at the response port. -/
def State.loaded (s : State) (o : Operands) : State :=
  { s with opx := o.x, opy := o.y, opw := o.w, oph := o.h, opon := o.on, opovr := o.ovr,
           busy := true, respPending := false }

/-- `s` after a command word with operand fields `o` was accepted and answered (st, d), and nothing else happened:
besides the operand registers only `RESP` and the port changed (rules R61, R64, R66). -/
def State.completed (s : State) (o : Operands) (st : Status) (d : BitVec 16) : State :=
  { s with opx := o.x, opy := o.y, opw := o.w, oph := o.h, opon := o.on, opovr := o.ovr,
           respStatus := st, respData := d, respPending := true, busy := false,
           responses := s.responses ++ [⟨st, d⟩] }

/-- `s` with the operand registers forgotten (they are unobservable between commands, rule R20). -/
def State.forgetOperands (s : State) : State :=
  { s with opx := 0, opy := 0, opw := 0, oph := 0, opon := false, opovr := false }

/-- An outcome with the operand registers of its next state forgotten. -/
def forgetOperands : Host.Outcome State Fault Refusal → Host.Outcome State Fault Refusal
  | .next s => .next s.forgetOperands
  | .fault f => .fault f
  | .refused r => .refused r

/-- Does a step take this instruction as a command the block runs now: every premise of rule R64 and of U13. -/
def State.accepts (s : State) (w : CommandWord) (rest : List Input) : Prop :=
  s.cfg.legal = true ∧ s.busy = false ∧ s.inputs = .command w :: rest

/-- A word stands at the command port, whether or not reset cuts its execution short (rules R64, R165). -/
def State.presents (s : State) (w : CommandWord) : Prop :=
  ∃ rest, s.inputs = .command w :: rest ∨ ∃ k, s.inputs = .resetDuring w k :: rest

/-- The next step applies reset: as the next input, at a busy port behind words that wait, or while the next word
executes (rule R165). -/
def State.TakesReset (s : State) : Prop :=
  (∃ rest, s.inputs = .reset :: rest) ∨ (s.busy = true ∧ .reset ∈ s.inputs) ∨
  ∃ w k rest, s.busy = false ∧ s.inputs = .resetDuring w k :: rest

/-- The block is constructed and idle to run commands: a legal configuration, `STATE` = READY and every byte of `FB`
written (what rule R32 item 1 says of every READY state). -/
structure State.Ready (s : State) : Prop where
  legal : s.cfg.legal = true
  mode : s.mode = .ready
  written : memWritten s.cfg.fbBytes s.fb = true
  wf : Memory.wf s.cfg.fbBytes s.fb = true

/-- The rows of the opcode table (rule R62): `match`, and the command it stands for. -/
def opcodeRows : List (CommandWord × (Operands → Instr)) :=
  [ (0x01000000000000000000, .construct), (0x02000000000000000000, .clear), (0x03000000000000000000, .getWidth),
    (0x04000000000000000000, .getHeight), (0x05000000000000000000, .setPixel), (0x06000000000000000000, .clearRect),
    (0x07000000000000000000, .updateFull), (0x08000000000000000000, .updateRect), (0x09000000000000000000, .getPixel) ]

/-- The operand fields at the bit positions of rule R60, written out. -/
def fieldsOf (w : CommandWord) : Operands :=
  ⟨w.extractLsb' 48 16, w.extractLsb' 32 16, w.extractLsb' 16 16, w.extractLsb' 0 16, w.getLsbD 64, w.getLsbD 65⟩

/-- The operand fields a command uses agree (rule R62, column "fields used"). -/
def sameUsed : Instr → Instr → Prop
  | .construct o, .construct p => o.ovr = p.ovr ∧ (o.ovr = true → o.x.extractLsb' 0 7 = p.x.extractLsb' 0 7)
  | .clear _, .clear _ => True
  | .getWidth _, .getWidth _ => True
  | .getHeight _, .getHeight _ => True
  | .setPixel o, .setPixel p => o.on = p.on ∧ o.x = p.x ∧ o.y = p.y
  | .clearRect o, .clearRect p => o.on = p.on ∧ o.x = p.x ∧ o.y = p.y ∧ o.w = p.w ∧ o.h = p.h
  | .updateFull _, .updateFull _ => True
  | .updateRect o, .updateRect p => o.x = p.x ∧ o.y = p.y ∧ o.w = p.w ∧ o.h = p.h
  | .getPixel o, .getPixel p => o.x = p.x ∧ o.y = p.y
  | _, _ => False

/-- The one `STATE` in which a command runs (the table of rule R150). -/
def runsIn : Instr → Lifecycle
  | .construct _ => .uninit
  | .clear _ => .ready
  | .getWidth _ => .ready
  | .getHeight _ => .ready
  | .setPixel _ => .ready
  | .clearRect _ => .ready
  | .updateFull _ => .ready
  | .updateRect _ => .ready
  | .getPixel _ => .ready

/-! ## Answers -/

/-- The answer the k-th transaction from now on gets (k from 0): the environment's list, then the free value. -/
def State.answerAt (s : State) (k : Nat) : Answer :=
  match s.answers[k]? with
  | some a => a
  | none => Config.freeAnswer (s.draws + (k - s.answers.length))

/-- The next `n` transactions are answered `ok`. -/
abbrev State.AllOk (s : State) (n : Nat) : Prop := ∀ k, k < n → s.answerAt k = .ok

/-- Trace entries of transactions that were all answered `ok`. -/
def okEntries (txs : List Transaction) : List TraceEntry := txs.map fun t => ⟨t, .ok⟩

/-- Trace entries of the first `k` transactions, answered `ok`, and of the k-th, which was not. -/
def endedEntries (txs : List Transaction) (k : Nat) (a : Answer) : List TraceEntry :=
  okEntries (txs.take k) ++ (txs.drop k).head?.toList.map fun t => ⟨t, a⟩

/-! ## The transactions the rules give -/

/-- The device address CONSTRUCT sets (rules R26, R100). -/
def constructAddr (c : Config) (o : Operands) : BusAddress :=
  if o.ovr then o.x.extractLsb' 0 7 else c.devAddrDefault

/-- The transactions of CONSTRUCT (rule R106 a). -/
def initTxs (c : Config) (dev : BusAddress) : List Transaction := c.initSeq.map fun v => .byte dev c.regCommand v

/-- The column bytes and page bytes of an accepted rectangle (rule R118). -/
def startColOf (x : Int) : Nat := x.toNat
/-- END_COL = x + w - 1 (rule R118) -/
def endColOf (x w : Int) : Nat := (x + w - 1).toNat
/-- START_PAGE = y div 8 (rule R118) -/
def startPageOf (y : Int) : Nat := (y / 8).toNat
/-- END_PAGE = (y + h - 1) div 8 (rule R118) -/
def endPageOf (y h : Int) : Nat := ((y + h - 1) / 8).toNat

/-- The six command bytes of `SetWindow` (rule R104). -/
def windowTxs (s : State) (x y w h : Int) : List Transaction :=
  [ s.cfg.cmdSetColumnAddr, BitVec.ofNat 8 (startColOf x), BitVec.ofNat 8 (endColOf x w),
    s.cfg.cmdSetPageAddr, BitVec.ofNat 8 (startPageOf y), BitVec.ofNat 8 (endPageOf y h) ].map
    fun v => .byte s.devAddr s.cfg.regCommand v

/-- `N = NP * w`, the number of bytes streamed (rule R119). -/
def streamLength (y w h : Int) : Nat := (endPageOf y h - startPageOf y + 1) * w.toNat

/-- The `FB` index of the k-th byte of the stream (rule R133). -/
def streamIndex (c : Config) (x y w : Int) (k : Nat) : Nat :=
  (startPageOf y + k / w.toNat) * c.width + startColOf x + k % w.toNat

/-- `S`, the byte stream of an update (rule R133). -/
def streamBytes (s : State) (x y w h : Int) : List Byte :=
  (List.range (streamLength y w h)).map fun k => (memRead s.fb (streamIndex s.cfg x y w k)).getD 0

/-- `NC = ceil(n / MTS)`, the number of chunks of `n` bytes (rule R134). -/
def chunkCount (mts n : Nat) : Nat := (n + mts - 1) / mts

/-- Chunk j of a byte stream: bytes j*MTS up to min((j+1)*MTS, N) - 1 (rule R134). -/
def chunk (mts : Nat) (bytes : List Byte) (j : Nat) : List Byte := (bytes.drop (j * mts)).take mts

/-- The chunks of a byte stream, in order (rule R134). -/
def chunks (mts : Nat) (bytes : List Byte) : List (List Byte) :=
  (List.range (chunkCount mts bytes.length)).map (chunk mts bytes)

/-- The buffer writes of a byte stream (rules R69, R134). -/
def chunkTxs (s : State) (bytes : List Byte) : List Transaction :=
  (chunks s.cfg.mts bytes).map fun p => .buf s.devAddr s.cfg.regData (BitVec.ofNat 8 p.length) p

/-- All the transactions of an accepted update, in order (rules R116, R122 c). -/
def updateTxs (s : State) (x y w h : Int) : List Transaction :=
  windowTxs s x y w h ++ chunkTxs s (streamBytes s x y w h)

/-- The payloads of the buffer writes among some trace entries, in order. -/
def payloadsOf (es : List TraceEntry) : List (List Byte) :=
  es.filterMap fun e =>
    match e.tx with
    | .byte _ _ _ => none
    | .buf _ _ _ payload => some payload

/-- The bytes of the whole `FB` in index order (rule R115). -/
def wholeFramebuffer (s : State) : List Byte := (List.range s.cfg.fbBytes).map fun i => (memRead s.fb i).getD 0

/-- `s` with the window registers of an accepted rectangle (rules R24, R118). -/
def State.windowed (s : State) (x y w h : Int) : State :=
  { s with startCol := BitVec.ofNat 8 (startColOf x), endCol := BitVec.ofNat 8 (endColOf x w),
           startPage := BitVec.ofNat 8 (startPageOf y), endPage := BitVec.ofNat 8 (endPageOf y h) }

/-- `s` with new values of what a streaming phase works on (rule R22, R23). -/
def State.streamed (s : State) (scratch : Memory) (sidx page col : Nat) : State :=
  { s with scratch := scratch, sidx := sidx, page := page, col := col }

/-- `s` with entries added to the trace. -/
def State.logged (s : State) (es : List TraceEntry) : State := { s with trace := s.trace ++ es }

/-! ## The invariant -/

/-- No buffer write is empty or longer than `MTS`, and its length field is its length (rules R69, R135). -/
def payloadBounded (mts : Nat) (t : Transaction) : Bool :=
  match t with
  | .byte _ _ _ => true
  | .buf _ _ length payload =>
    decide (1 ≤ payload.length) && decide (payload.length ≤ mts) && decide (length.toNat = payload.length)

/-- What holds in every state a run reaches (rules R22, R23, R32, R135). -/
structure State.Inv (s : State) : Prop where
  /-- the configuration is in its ranges (rule R5) -/
  legal : s.cfg.legal = true
  /-- `FB` is in canonical form -/
  fbWf : Memory.wf s.cfg.fbBytes s.fb = true
  /-- `SCRATCH` is in canonical form -/
  scratchWf : Memory.wf s.cfg.mts s.scratch = true
  /-- rule R32 item 1 -/
  readyWritten : s.mode = .ready → memWritten s.cfg.fbBytes s.fb = true
  /-- rule R32 item 2 -/
  notInitializing : s.busy = false → s.mode ≠ .initializing
  /-- rule R32 item 3 -/
  scratchWritten : (memReadRange s.scratch 0 s.sidx).isSome = true
  /-- rule R32 item 4 -/
  sidxBound : s.sidx ≤ s.cfg.mts
  /-- rule R32 item 4: only an update leaves `SIDX` other than 0 -/
  sidxIdle : s.mode ≠ .ready → s.sidx = 0
  /-- rule R23 -/
  seqIdxBound : s.seqIdx ≤ s.cfg.initLen
  /-- rule R23 -/
  pageBound : s.page ≤ s.cfg.pages
  /-- rule R23 -/
  colBound : s.col ≤ s.cfg.width
  /-- rule R135 -/
  payloads : ∀ e ∈ s.trace, payloadBounded s.cfg.mts e.tx = true

/-- What an entry of the trace may be when `DEV_ADDR` is `dev` (rules R68, R69, R106, R135). -/
def entryWellShaped (c : Config) (dev : BusAddress) (e : TraceEntry) : Bool :=
  (match e.tx with
    | .byte d reg _ => d == dev && reg == c.regCommand
    | .buf d reg _ _ => d == dev && reg == c.regData) && payloadBounded c.mts e.tx

end Sys2Proof.Machine
end

