-- ==== Sys2Proof/Certificates/Slice0/Obligations.lean ====
section
/-! DEFINITION. The statements made about the machine. Each docstring names the rule of spec/ it formalises. A next
state is written as one record, so a statement says what changes and that nothing else does. -/

open Sys2Proof Sys2Proof.Machine

/-! ## Encoding (30_encoding.md) -/

/-- No bit of an encoding is dropped: every command, with every operand at every value, is read back from its word
(rules R60 to R62). -/
def Obligations.DecodeOfEncodeIsTheCommand : Prop := ∀ i : Instr, decode (encode i) = .ok i

/-- Every legal word is the word of the command it decodes to, ignored fields included (rules R60 to R63). -/
def Obligations.EncodeOfDecodeIsTheWord : Prop :=
  ∀ (w : CommandWord) (i : Instr), decode w = .ok i → encode i = w

/-- Rule R62: a word selects a row of the opcode map when `w & mask = match`; then and only then it decodes to that
row's command, with the operand fields of the word (rule R61). -/
def Obligations.WordSelectsItsOpcodeRow : Prop :=
  ∀ (w : CommandWord), ∀ r ∈ opcodeRows,
    w &&& 0xFFFC0000000000000000 = r.1 ↔ decode w = .ok (r.2 (fieldsOf w))

/-- Rule R63 a, b: exactly the words with a reserved opcode or a non-zero reserved bit are illegal. -/
def Obligations.IllegalWordsAreTheReservedOnes : Prop :=
  ∀ w : CommandWord,
    (∃ e, decode w = .error e) ↔
      ((w.extractLsb' 72 8).toNat = 0 ∨ 9 < (w.extractLsb' 72 8).toNat ∨ w.extractLsb' 66 6 ≠ 0)

/-- Rule R60: over the byte channel, most significant byte first, a command is read back and the bytes after its ten
are left. -/
def Obligations.ByteChannelReadsBackTheCommand : Prop :=
  ∀ (i : Instr) (rest : List Byte), decodeBytes (encodeBytes i ++ rest) = .ok (i, rest)

/-- Words the spec writes out decode as it says, in this order: of 95_test_vectors.md V9, V10, the four of V12a (its
0x03... and 0x04... whole as in rule R62), V11, V12 and V2; the word in the example of rule R116; then V12b, V12c, V12d
and V12e of 95_test_vectors.md. -/
def Obligations.SampleWordsDecode : Prop :=
  decode 0x01000000000000000000 = .ok (.construct ⟨0, 0, 0, 0, false, false⟩) ∧
  decode 0x0102003D000000000000 = .ok (.construct ⟨0x3D, 0, 0, 0, false, true⟩) ∧
  decode 0x02000000000000000000 = .ok (.clear ⟨0, 0, 0, 0, false, false⟩) ∧
  decode 0x03000000000000000000 = .ok (.getWidth ⟨0, 0, 0, 0, false, false⟩) ∧
  decode 0x04000000000000000000 = .ok (.getHeight ⟨0, 0, 0, 0, false, false⟩) ∧
  decode 0x07000000000000000000 = .ok (.updateFull ⟨0, 0, 0, 0, false, false⟩) ∧
  decode 0x0501000A000300000000 = .ok (.setPixel ⟨10, 3, 0, 0, true, false⟩) ∧
  decode 0x0501FFFF000000000000 = .ok (.setPixel ⟨-1, 0, 0, 0, true, false⟩) ∧
  decode 0x060100050005000A000A = .ok (.clearRect ⟨5, 5, 10, 10, true, false⟩) ∧
  decode 0x0800000A00030005000A = .ok (.updateRect ⟨10, 3, 5, 10, false, false⟩) ∧
  decode 0x0900000A000300000000 = .ok (.getPixel ⟨10, 3, 0, 0, false, false⟩) ∧
  decode 0x00000000000000000000 = .error (.reservedOpcode 0) ∧
  decode 0x0A000000000000000000 = .error (.reservedOpcode 0x0A) ∧
  decode 0x0504000A000300000000 = .error (.reservedBits 1)

/-! ## The step (00_scope.md, 30_encoding.md, 70_reset_and_hazards.md) -/

/-- A step runs the decoded command: the word at the command port, accepted (rule R64) and legal, is executed; the
step adds only that the word is taken from the inputs. -/
def Obligations.StepRunsTheDecodedCommand : Prop :=
  ∀ (s : State) (w : CommandWord) (rest : List Input) (i : Instr),
    s.accepts w rest → decode w = .ok i → step s = exec i { s with inputs := rest }

/-- Rule R149: an illegal word is answered (ILLEGAL_COMMAND, 0) in every STATE; nothing but `RESP`, the port and the
operand registers changes. -/
def Obligations.IllegalWordChangesOnlyResponseAndOperands : Prop :=
  ∀ (s : State) (w : CommandWord) (rest : List Input) (e : DecodeError),
    s.accepts w rest → decode w = .error e →
      step s = .next ({ s with inputs := rest }.completed (fieldsOf w) .illegalCommand 0)

/-- Rule R64: a word presented while a command is executing is not accepted, and with no input the block waits: it
stays as it is until reset is among its inputs. -/
def Obligations.BusyOrIdleBlockWaits : Prop :=
  ∀ s : State, s.cfg.legal = true → (s.inputs = [] ∨ s.busy = true ∧ .reset ∉ s.inputs) → step s = .next s

/-- Rule R165, from every state: reset is taken when it is the next input and, while a command waits for its answer,
also from behind words presented to the busy port, which go on being presented (log 18). What reset sets, that no
response is produced, that transactions issued stay issued, and that no byte of `FB` or `SCRATCH` has a value. -/
def Obligations.ResetFromEveryState : Prop :=
  ∀ (s : State) (rest : List Input), s.cfg.legal = true →
    (s.inputs = .reset :: rest ∨ s.busy = true ∧ .reset ∈ s.inputs ∧ rest = s.inputs.erase .reset) →
    ∃ t, step s = .next t ∧ t.mode = .uninit ∧ t.devAddr = 0x3C ∧ t.sidx = 0 ∧ t.respStatus = .ok ∧ t.respData = 0 ∧
      t.respPending = false ∧ t.busy = false ∧ (∀ i, memRead t.fb i = none) ∧ (∀ i, memRead t.scratch i = none) ∧
      t.cfg = s.cfg ∧ t.inputs = rest ∧ t.answers = s.answers ∧ t.trace = s.trace ∧ t.responses = s.responses

/-- Rule R165, U12 (log 7): reset applied while the block executes a word, after `k` of its transactions were issued and
answered. With `t` what the word would have led to and `es` the transactions it would have issued: the block is reset,
the first `k` transactions stay issued, no response is produced and the answers go on from the k-th; where there are
fewer than `k` the word has been answered, or waits for ever, before reset comes. -/
def Obligations.ResetDuringACommandAbandonsIt : Prop :=
  ∀ (s t : State) (w : CommandWord) (k : Nat) (rest : List Input), s.cfg.legal = true → s.busy = false →
    s.inputs = .resetDuring w k :: rest → step { s with inputs := .command w :: rest } = .next t →
    ∃ u es, step s = .next u ∧ u.mode = .uninit ∧ u.devAddr = 0x3C ∧ u.sidx = 0 ∧ u.respStatus = .ok ∧
      u.respData = 0 ∧ u.respPending = false ∧ u.busy = false ∧ (∀ i, memRead u.fb i = none) ∧
      (∀ i, memRead u.scratch i = none) ∧ u.cfg = s.cfg ∧ u.inputs = rest ∧
      t.trace = s.trace ++ es ∧
      (k ≤ es.length → u.trace = s.trace ++ es.take k ∧ u.responses = s.responses ∧
        ∀ j, u.answerAt j = s.answerAt (k + j)) ∧
      (es.length < k → u.trace = t.trace ∧ u.responses = t.responses ∧ ∀ j, u.answerAt j = t.answerAt j)

/-- The values rule R31 states for reset, in the state after reset. -/
def Obligations.StateAfterReset : Prop :=
  State.reset.mode = .uninit ∧ State.reset.mode.code = 0 ∧ State.reset.devAddr = 0x3C ∧ State.reset.sidx = 0 ∧
  State.reset.respStatus.code = 0 ∧ State.reset.respData = 0 ∧ State.reset.respPending = false ∧
  State.reset.busy = false ∧ (∀ i, memRead State.reset.fb i = none) ∧ ∀ i, memRead State.reset.scratch i = none

/-- U13 (log 3): a configuration outside the ranges of rule R5 has no meaning. -/
def Obligations.ConfigurationOutOfRangeIsRefused : Prop :=
  ∀ s : State, s.cfg.legal = false → step s = .refused .configOutOfRange

/-- Rules R29, R167: no step changes the configuration. -/
def Obligations.StepKeepsTheConfiguration : Prop := ∀ s t : State, step s = .next t → t.cfg = s.cfg

/-! ## Gate and priority (60_exceptions.md) -/

/-- Rule R150: a command that is not callable in the current STATE ends with (BAD_STATE, 0) and changes nothing but
`RESP`, the port and the operand registers; one that is callable never ends with BAD_STATE. -/
def Obligations.StateGate : Prop :=
  ∀ (i : Instr) (s : State), s.cfg.legal = true →
    (s.mode ≠ runsIn i →
      exec i s = .next (s.completed i.operands .badState 0)) ∧
    (s.mode = runsIn i →
      ∀ t, exec i s = .next t → t.busy = false → t.respStatus ≠ .badState)

/-- Rule R153: illegal encoding, then the gate, then validation (UPDATE_RECT only), then the first transaction that is
answered err, in trace order: the first of these that holds decides the response, and nothing after it happens. -/
def Obligations.ErrorsInPriorityOrder : Prop :=
  ∀ (s : State) (w : CommandWord) (rest : List Input), s.accepts w rest →
    ((∃ e, decode w = .error e) → ∃ t, step s = .next t ∧ t.respStatus = .illegalCommand ∧ t.trace = s.trace) ∧
    (∀ i, decode w = .ok i → s.mode ≠ runsIn i →
      ∃ t, step s = .next t ∧ t.respStatus = .badState ∧ t.trace = s.trace) ∧
    (∀ o, decode w = .ok (.updateRect o) → s.mode = .ready →
      rejects s.cfg o.x.toInt o.y.toInt o.w.toInt o.h.toInt = true →
        ∃ t, step s = .next t ∧ t.respStatus = .invalidArgument ∧ t.trace = s.trace) ∧
    (∀ o, decode w = .ok (.updateRect o) → s.Ready →
      rejects s.cfg o.x.toInt o.y.toInt o.w.toInt o.h.toInt = false →
        ∀ k, k < (updateTxs s o.x.toInt o.y.toInt o.w.toInt o.h.toInt).length → s.AllOk k → s.answerAt k = .err →
          ∃ t, step s = .next t ∧ t.respStatus = .transportError ∧ t.trace.length = s.trace.length + (k + 1)) ∧
    (∀ o, decode w = .ok (.updateFull o) → s.Ready →
      ∀ k, k < (updateTxs s 0 0 s.cfg.width s.cfg.height).length → s.AllOk k → s.answerAt k = .err →
        ∃ t, step s = .next t ∧ t.respStatus = .transportError ∧ t.trace.length = s.trace.length + (k + 1)) ∧
    ∀ o, decode w = .ok (.construct o) → s.mode = .uninit →
      ∀ k, k < s.cfg.initLen → s.AllOk k → s.answerAt k = .err →
        ∃ t, step s = .next t ∧ t.respStatus = .transportError ∧ t.trace.length = s.trace.length + (k + 1)

/-- Rule R146: a rejected UPDATE_RECT in READY answers (INVALID_ARGUMENT, 0) and changes nothing but `RESP`, the port
and the operand registers; no other command ends so. -/
def Obligations.InvalidArgumentHasNoEffect : Prop :=
  (∀ (s : State) (o : Operands), s.mode = .ready →
    (o.x.toInt < 0 ∨ o.x.toInt > s.cfg.width ∨ o.y.toInt < 0 ∨ o.y.toInt > s.cfg.height ∨ o.w.toInt ≤ 0 ∨
      o.h.toInt ≤ 0 ∨ o.x.toInt + o.w.toInt > s.cfg.width ∨ o.y.toInt + o.h.toInt > s.cfg.height) →
    exec (.updateRect o) s = .next (s.completed o .invalidArgument 0)) ∧
  ∀ (i : Instr) (s t : State), s.cfg.legal = true → exec i s = .next t → t.busy = false →
    t.respStatus = .invalidArgument → ∃ o, i = .updateRect o

/-- Rule R147: TRANSPORT_ERROR comes only from CONSTRUCT and the updates, and the failed transaction is the last entry
of the trace. -/
def Obligations.TransportErrorEndsTheTrace : Prop :=
  ∀ (i : Instr) (s t : State), s.cfg.legal = true → exec i s = .next t → t.busy = false →
    t.respStatus = .transportError →
    (∃ o, i = .construct o ∨ i = .updateFull o ∨ i = .updateRect o) ∧
    t.trace.getLast?.map TraceEntry.answer = some .err

/-! ## Framebuffer commands (40_framebuffer_bit_indexer.md) -/

/-- Rule R80: CLEAR in READY zero-fills `FB` and answers (OK, 0); nothing else changes. -/
def Obligations.ClearZeroFillsTheFramebuffer : Prop :=
  ∀ (s : State) (o : Operands), s.mode = .ready →
    ∃ fb, exec (.clear o) s = .next { s.completed o .ok 0 with fb := fb } ∧
      Memory.wf s.cfg.fbBytes fb = true ∧
      ∀ i, memRead fb i = if i < s.cfg.fbBytes then some 0 else none

/-- Rule R81: GET_WIDTH in READY answers (OK, W); nothing else changes. -/
def Obligations.GetWidthAnswersTheWidth : Prop :=
  ∀ (s : State) (o : Operands), s.cfg.legal = true → s.mode = .ready →
    ∃ d : BitVec 16, d.toNat = s.cfg.width ∧ exec (.getWidth o) s = .next (s.completed o .ok d)

/-- Rule R82: GET_HEIGHT in READY answers (OK, H); nothing else changes. -/
def Obligations.GetHeightAnswersTheHeight : Prop :=
  ∀ (s : State) (o : Operands), s.cfg.legal = true → s.mode = .ready →
    ∃ d : BitVec 16, d.toNat = s.cfg.height ∧ exec (.getHeight o) s = .next (s.completed o .ok d)

/-- Rules R84, R85: SET_PIXEL answers (OK, 0). In range it sets or clears bit `y & 7` of byte `x + (y div 8) * W` and
leaves every other byte; out of range `FB` is unchanged. Nothing else changes. -/
def Obligations.SetPixelWritesOneBit : Prop :=
  ∀ (s : State) (o : Operands), s.Ready →
    ∃ fb, exec (.setPixel o) s = .next { s.completed o .ok 0 with fb := fb } ∧
      (0 ≤ o.x.toInt ∧ o.x.toInt < s.cfg.width ∧ 0 ≤ o.y.toInt ∧ o.y.toInt < s.cfg.height →
        (∃ old, memRead s.fb (pixelIndex s.cfg o.x.toInt o.y.toInt) = some old ∧
          memRead fb (pixelIndex s.cfg o.x.toInt o.y.toInt) =
            some (if o.on then old ||| 1#8 <<< (o.y.toInt % 8).toNat else old &&& ~~~(1#8 <<< (o.y.toInt % 8).toNat))) ∧
        ∀ a, a ≠ pixelIndex s.cfg o.x.toInt o.y.toInt → memRead fb a = memRead s.fb a) ∧
      (¬(0 ≤ o.x.toInt ∧ o.x.toInt < s.cfg.width ∧ 0 ≤ o.y.toInt ∧ o.y.toInt < s.cfg.height) → fb = s.fb)

/-- Rule R89 b: SET_PIXEL of an in-range pixel changes that pixel to `on` and no other pixel. -/
def Obligations.SetPixelLeavesEveryOtherPixel : Prop :=
  ∀ (s t : State) (o : Operands), s.Ready → inRange s.cfg o.x.toInt o.y.toInt = true →
    exec (.setPixel o) s = .next t →
      ∀ x y, inRange s.cfg x y = true →
        pixelOf s.cfg t.fb x y =
          if x = o.x.toInt ∧ y = o.y.toInt then some o.on else pixelOf s.cfg s.fb x y

/-- Rule R89 a: SET_PIXEL of an in-range pixel followed by GET_PIXEL of it answers what was set. -/
def Obligations.GetPixelReadsWhatSetPixelWrote : Prop :=
  ∀ (s : State) (o p : Operands), s.Ready → inRange s.cfg o.x.toInt o.y.toInt = true → p.x = o.x → p.y = o.y →
    ∃ t u, exec (.setPixel o) s = .next t ∧ exec (.getPixel p) t = .next u ∧ u.respStatus = .ok ∧
      u.respData = if o.on then 1 else 0

/-- Rule R86: CLEAR_RECT answers (OK, 0) for every rectangle; every in-range pixel of [x, x+w) × [y, y+h) becomes `on`,
every other pixel, and every byte the rectangle does not meet, is unchanged. Nothing else changes. -/
def Obligations.ClearRectWritesTheRectangle : Prop :=
  ∀ (s : State) (o : Operands), s.Ready →
    ∃ fb, exec (.clearRect o) s = .next { s.completed o .ok 0 with fb := fb } ∧
      (∀ px py, inRange s.cfg px py = true →
        pixelOf s.cfg fb px py =
          if o.x.toInt ≤ px ∧ px < o.x.toInt + o.w.toInt ∧ o.y.toInt ≤ py ∧ py < o.y.toInt + o.h.toInt
          then some o.on else pixelOf s.cfg s.fb px py) ∧
      ∀ a : Nat,
        ¬(o.x.toInt ≤ ((a % s.cfg.width : Nat) : Int) ∧ ((a % s.cfg.width : Nat) : Int) < o.x.toInt + o.w.toInt ∧
          o.y.toInt < ((8 * (a / s.cfg.width) + 8 : Nat) : Int) ∧
          ((8 * (a / s.cfg.width) : Nat) : Int) < o.y.toInt + o.h.toInt) →
        memRead fb a = memRead s.fb a

/-- Rule R86: what CLEAR_RECT does is the two loops of `SetPixel` over the rectangle as the rule writes them. -/
def Obligations.ClearRectIsThePixelLoop : Prop :=
  ∀ (s : State) (o : Operands), s.Ready →
    ∃ fb, drawRectLoop s.cfg o.x.toInt o.w.toInt.toNat o.on o.h.toInt.toNat o.y.toInt s.fb = .ok fb ∧
      exec (.clearRect o) s = .next { s.completed o .ok 0 with fb := fb }

/-- Rule R87: GET_PIXEL answers (OK, the pixel) in range and (OK, 0) out of range; nothing but `RESP`, the port and the
operand registers changes. -/
def Obligations.GetPixelAnswersThePixel : Prop :=
  ∀ (s : State) (o : Operands), s.Ready →
    ∃ d : BitVec 16, exec (.getPixel o) s = .next (s.completed o .ok d) ∧ d.toNat ≤ 1 ∧
      (inRange s.cfg o.x.toInt o.y.toInt = true → pixelOf s.cfg s.fb o.x.toInt o.y.toInt = some (d == 1)) ∧
      (inRange s.cfg o.x.toInt o.y.toInt = false → d = 0)

/-- Rules R41, R83: `PixelAddr` is x + (y div 8) * W and y & 7, inside `FB`; it is a bijection from the in-range pixels
onto the bits of `FB`. -/
def Obligations.PixelAddressIsABijection : Prop :=
  ∀ c : Config, c.legal = true →
    (∀ x y, inRange c x y = true →
      (pixelIndex c x y : Int) = x + y / 8 * c.width ∧ (pixelBit y : Int) = y % 8 ∧
      pixelIndex c x y < c.fbBytes ∧ pixelBit y < 8) ∧
    (∀ x y x' y', inRange c x y = true → inRange c x' y' = true → pixelIndex c x y = pixelIndex c x' y' →
      pixelBit y = pixelBit y' → x = x' ∧ y = y') ∧
    ∀ i b : Nat, i < c.fbBytes → b < 8 →
      inRange c (i % c.width : Nat) (8 * (i / c.width) + b : Nat) = true ∧
      pixelIndex c (i % c.width : Nat) (8 * (i / c.width) + b : Nat) = i ∧
      pixelBit (8 * (i / c.width) + b : Nat) = b

/-- Rule R89 e: none of the six framebuffer commands issues a transaction or changes STATE, DEV_ADDR, SCRATCH or SIDX,
in any state. -/
def Obligations.FramebufferCommandsStayOffTheBus : Prop :=
  ∀ (i : Instr) (o : Operands) (s t : State),
    i = .clear o ∨ i = .getWidth o ∨ i = .getHeight o ∨ i = .setPixel o ∨ i = .clearRect o ∨ i = .getPixel o →
    exec i s = .next t →
      t.trace = s.trace ∧ t.answers = s.answers ∧ t.draws = s.draws ∧ t.mode = s.mode ∧ t.devAddr = s.devAddr ∧
      t.scratch = s.scratch ∧ t.sidx = s.sidx ∧ t.busy = false

/-- Rule R31 (log 8): SET_PIXEL and GET_PIXEL of an in-range pixel whose byte nothing has written is a fault of the
model. -/
def Obligations.UnwrittenByteIsAFault : Prop :=
  ∀ (s : State) (o : Operands), s.mode = .ready → inRange s.cfg o.x.toInt o.y.toInt = true →
    memRead s.fb (pixelIndex s.cfg o.x.toInt o.y.toInt) = none →
      exec (.setPixel o) s = .fault (.unwrittenFramebuffer (pixelIndex s.cfg o.x.toInt o.y.toInt)) ∧
      exec (.getPixel o) s = .fault (.unwrittenFramebuffer (pixelIndex s.cfg o.x.toInt o.y.toInt))

/-! ## CONSTRUCT (41_register_command_sequencer.md) -/

/-- Rules R100, R106: CONSTRUCT in UNINIT sets DEV_ADDR, zero-fills `FB` and sends `INIT_SEQ`, one BYTE transaction to
(DEV_ADDR, REG_COMMAND) for each byte in order. All answered ok: READY, (OK, 0). The k-th the first answered err: the
trace has the first k + 1, STATE is FAILED, (TRANSPORT_ERROR, 0). In any other state BAD_STATE with no effect. Nothing
else changes. -/
def Obligations.ConstructReadyOrFailed : Prop :=
  ∀ (s : State) (o : Operands),
    (s.mode = .uninit →
      ∃ fb, (∀ i, memRead fb i = if i < s.cfg.fbBytes then some 0 else none) ∧
        (s.AllOk s.cfg.initLen →
          exec (.construct o) s =
            .next { ((s.completed o .ok 0).spent s.cfg.initLen).logged
                      (okEntries (initTxs s.cfg (constructAddr s.cfg o))) with
                    mode := .ready, devAddr := constructAddr s.cfg o, fb := fb, seqIdx := s.cfg.initLen }) ∧
        ∀ k, k < s.cfg.initLen → s.AllOk k → s.answerAt k = .err →
          exec (.construct o) s =
            .next { ((s.completed o .transportError 0).spent (k + 1)).logged
                      (endedEntries (initTxs s.cfg (constructAddr s.cfg o)) k .err) with
                    mode := .failed, devAddr := constructAddr s.cfg o, fb := fb, seqIdx := k }) ∧
    (s.mode ≠ .uninit → exec (.construct o) s = .next (s.completed o .badState 0))

/-- Rules R10, R25, U11 (log 5): while a write of `INIT_SEQ` is never answered CONSTRUCT has produced no response, the
port is busy and STATE is INITIALIZING. -/
def Obligations.ConstructWaitsForItsAnswer : Prop :=
  ∀ (s : State) (o : Operands) (k : Nat), s.mode = .uninit → k < s.cfg.initLen → s.AllOk k →
    s.answerAt k = .never →
    ∃ t, exec (.construct o) s = .next t ∧ t.busy = true ∧ t.mode = .initializing ∧ t.seqIdx = k ∧
      t.respPending = false ∧ t.responses = s.responses ∧
      t.trace = s.trace ++ endedEntries (initTxs s.cfg (constructAddr s.cfg o)) k .never

/-! ## Updates (42_display_window_controller.md, 43_chunked_transfer_engine.md) -/

/-- Rule R117: `Reject` is the disjunction of the eight tests, and the equivalent form of the accepted rectangles. -/
def Obligations.RejectIsTheEightTests : Prop :=
  ∀ (c : Config) (x y w h : Int),
    (rejects c x y w h = true ↔
      x < 0 ∨ x > c.width ∨ y < 0 ∨ y > c.height ∨ w ≤ 0 ∨ h ≤ 0 ∨ x + w > c.width ∨ y + h > c.height) ∧
    (rejects c x y w h = false ↔ 0 ≤ x ∧ 0 ≤ y ∧ 1 ≤ w ∧ 1 ≤ h ∧ x + w ≤ c.width ∧ y + h ≤ c.height)

/-- Rule R119: the ranges of the window of an accepted rectangle, that its boundary bytes are the values themselves,
and that every byte it names is in `FB`. -/
def Obligations.WindowLiesInsideTheFramebuffer : Prop :=
  ∀ (s : State), s.cfg.legal = true →
    rejects s.cfg s.opx.toInt s.opy.toInt s.opw.toInt s.oph.toInt = false →
      let u := computeWindow s
      (u.startCol.toNat : Int) = s.opx.toInt ∧ (u.endCol.toNat : Int) = s.opx.toInt + s.opw.toInt - 1 ∧
      (u.startPage.toNat : Int) = s.opy.toInt / 8 ∧ (u.endPage.toNat : Int) = (s.opy.toInt + s.oph.toInt - 1) / 8 ∧
      u.startCol.toNat ≤ u.endCol.toNat ∧ u.endCol.toNat ≤ s.cfg.width - 1 ∧
      u.startPage.toNat ≤ u.endPage.toNat ∧ u.endPage.toNat ≤ s.cfg.pages - 1 ∧
      ((u.endCol.toNat - u.startCol.toNat + 1 : Nat) : Int) = s.opw.toInt ∧
      1 ≤ (u.endPage.toNat - u.startPage.toNat + 1) * (u.endCol.toNat - u.startCol.toNat + 1) ∧
      (u.endPage.toNat - u.startPage.toNat + 1) * (u.endCol.toNat - u.startCol.toNat + 1) ≤ s.cfg.fbBytes ∧
      ∀ p c, u.startPage.toNat ≤ p → p ≤ u.endPage.toNat → u.startCol.toNat ≤ c → c ≤ u.endCol.toNat →
        p * s.cfg.width + c < s.cfg.fbBytes

/-- Rules R104, R116, R118, R133: an accepted UPDATE_RECT, every transaction answered ok, sends the six window bytes
and the chunks of the byte stream of its window, page-major and column-minor, and answers (OK, 0). `FB`, STATE and
DEV_ADDR are unchanged; of `SCRATCH` nothing is said but its form. -/
def Obligations.UpdateRectSendsItsWindow : Prop :=
  ∀ (s : State) (o : Operands), s.Ready → rejects s.cfg o.x.toInt o.y.toInt o.w.toInt o.h.toInt = false →
    s.AllOk (6 + chunkCount s.cfg.mts (streamLength o.y.toInt o.w.toInt o.h.toInt)) →
    ∃ m, (Memory.wf s.cfg.mts s.scratch = true → Memory.wf s.cfg.mts m = true) ∧
      exec (.updateRect o) s =
        .next (((((s.completed o .ok 0).windowed o.x.toInt o.y.toInt o.w.toInt o.h.toInt).spent
          (6 + chunkCount s.cfg.mts (streamLength o.y.toInt o.w.toInt o.h.toInt))).logged
          (okEntries (updateTxs s o.x.toInt o.y.toInt o.w.toInt o.h.toInt))).streamed m 0
            (endPageOf o.y.toInt o.h.toInt + 1) (endColOf o.x.toInt o.w.toInt + 1))

/-- Rule R134: the buffer writes of a successful update: there are ceil(N / MTS) of them, at least one; each but the
last has MTS bytes and the last N - (NC - 1) * MTS; together, in order, they are the byte stream; SIDX ends 0. -/
def Obligations.ChunksOfASuccessfulUpdate : Prop :=
  ∀ (s t : State) (o : Operands), s.Ready → rejects s.cfg o.x.toInt o.y.toInt o.w.toInt o.h.toInt = false →
    s.AllOk (6 + chunkCount s.cfg.mts (streamLength o.y.toInt o.w.toInt o.h.toInt)) →
    exec (.updateRect o) s = .next t →
      let N := streamLength o.y.toInt o.w.toInt o.h.toInt
      let ps := payloadsOf (t.trace.drop s.trace.length)
      1 ≤ ps.length ∧ (ps.length - 1) * s.cfg.mts < N ∧ N ≤ ps.length * s.cfg.mts ∧
      (∀ j, j + 1 < ps.length → (ps[j]?.map List.length) = some s.cfg.mts) ∧
      (ps.getLast?.map List.length) = some (N - (ps.length - 1) * s.cfg.mts) ∧
      ps.flatten = streamBytes s o.x.toInt o.y.toInt o.w.toInt o.h.toInt ∧ t.sidx = 0

/-- Rules R116, R136, R154: when the k-th transaction of an UPDATE_RECT (k from 0; of an UPDATE_FULL through
UpdateFullIsUpdateRectOfTheSurface) is the first answered err, the trace ends with
it, the answer is (TRANSPORT_ERROR, 0), `FB`, STATE and DEV_ADDR are unchanged; in the window phase SCRATCH, SIDX, PAGE
and COL are unchanged too, and in the data phase SIDX is the failed chunk's length. -/
def Obligations.UpdateEndsAtItsFirstFailure : Prop :=
  ∀ (s : State) (o : Operands) (k : Nat), s.Ready →
    rejects s.cfg o.x.toInt o.y.toInt o.w.toInt o.h.toInt = false →
    k < 6 + chunkCount s.cfg.mts (streamLength o.y.toInt o.w.toInt o.h.toInt) → s.AllOk k → s.answerAt k = .err →
    ∃ m i p c,
      exec (.updateRect o) s =
        .next (((((s.completed o .transportError 0).windowed o.x.toInt o.y.toInt o.w.toInt o.h.toInt).spent
          (k + 1)).logged (endedEntries (updateTxs s o.x.toInt o.y.toInt o.w.toInt o.h.toInt) k .err)).streamed
            m i p c) ∧
      (k < 6 → m = s.scratch ∧ i = s.sidx ∧ p = s.page ∧ c = s.col) ∧
      (6 ≤ k →
        i = (chunk s.cfg.mts (streamBytes s o.x.toInt o.y.toInt o.w.toInt o.h.toInt) (k - 6)).length ∧
        memReadRange m 0 i = some (chunk s.cfg.mts (streamBytes s o.x.toInt o.y.toInt o.w.toInt o.h.toInt) (k - 6)))

/-- Rules R10, U11 (log 5): an update whose k-th transaction is never answered has produced no response and the port
is busy; `FB`, STATE and DEV_ADDR are unchanged. -/
def Obligations.UpdateWaitsForItsAnswer : Prop :=
  ∀ (s : State) (o : Operands) (k : Nat), s.Ready →
    rejects s.cfg o.x.toInt o.y.toInt o.w.toInt o.h.toInt = false →
    k < 6 + chunkCount s.cfg.mts (streamLength o.y.toInt o.w.toInt o.h.toInt) → s.AllOk k → s.answerAt k = .never →
    ∃ m i p c,
      exec (.updateRect o) s =
        .next (((((s.loaded o).windowed o.x.toInt o.y.toInt o.w.toInt o.h.toInt).spent
          (k + 1)).logged (endedEntries (updateTxs s o.x.toInt o.y.toInt o.w.toInt o.h.toInt) k .never)).streamed
            m i p c)

/-- Rule R115, first half: UPDATE_FULL in READY is UPDATE_RECT 0, 0, W, H, for every sequence of answers. -/
def Obligations.UpdateFullIsUpdateRectOfTheSurface : Prop :=
  ∀ (s : State) (o : Operands), s.mode = .ready →
    exec (.updateFull o) s =
      exec (.updateRect
        { o with x := 0, y := 0, w := BitVec.ofNat 16 s.cfg.width, h := BitVec.ofNat 16 s.cfg.height }) s

/-- Rule R115: UPDATE_FULL, every transaction answered ok, loads the operand registers with (0, 0, W, H), sends the
window 0, W-1, 0, PAGES-1 and all of `FB` in index order, and answers (OK, 0). -/
def Obligations.UpdateFullSendsTheWholeFramebuffer : Prop :=
  ∀ (s : State) (o : Operands), s.Ready → s.AllOk (6 + chunkCount s.cfg.mts s.cfg.fbBytes) →
    ∃ m, exec (.updateFull o) s =
      .next (((({ s.completed o .ok 0 with
            opx := 0, opy := 0, opw := BitVec.ofNat 16 s.cfg.width, oph := BitVec.ofNat 16 s.cfg.height,
            startCol := 0, endCol := BitVec.ofNat 8 (s.cfg.width - 1),
            startPage := 0, endPage := BitVec.ofNat 8 (s.cfg.pages - 1) }.spent
          (6 + chunkCount s.cfg.mts s.cfg.fbBytes)).logged
          (okEntries
            ([s.cfg.cmdSetColumnAddr, 0, BitVec.ofNat 8 (s.cfg.width - 1), s.cfg.cmdSetPageAddr, 0,
              BitVec.ofNat 8 (s.cfg.pages - 1)].map (fun v => Transaction.byte s.devAddr s.cfg.regCommand v) ++
            chunkTxs s (wholeFramebuffer s)))).streamed m 0 s.cfg.pages s.cfg.width))

/-- Rule R47, an environment assumption (log 16), on a device in the horizontal addressing mode, which the rule makes a
premise and the model's device takes for granted (log 20): after a successful update the display RAM of a device that does what
the rule says agrees with `FB` on every byte of the window, and every other byte of it is as it was. -/
def Obligations.DeviceAgreesAfterAnUpdate : Prop :=
  ∀ (s t : State) (o : Operands) (d : Device) (taken : Nat → Nat), s.Ready →
    rejects s.cfg o.x.toInt o.y.toInt o.w.toInt o.h.toInt = false →
    s.AllOk (6 + chunkCount s.cfg.mts (streamLength o.y.toInt o.w.toInt o.h.toInt)) →
    exec (.updateRect o) s = .next t →
      let d' := deviceReceiveAll s.cfg taken 0 (t.trace.drop s.trace.length) d
      (∀ p c, startPageOf o.y.toInt ≤ p → p ≤ endPageOf o.y.toInt o.h.toInt → startColOf o.x.toInt ≤ c →
        c ≤ endColOf o.x.toInt o.w.toInt →
          memRead d'.ram (byteIndex s.cfg p c) = memRead s.fb (byteIndex s.cfg p c)) ∧
      ∀ a, (∀ p c, startPageOf o.y.toInt ≤ p → p ≤ endPageOf o.y.toInt o.h.toInt → startColOf o.x.toInt ≤ c →
        c ≤ endColOf o.x.toInt o.w.toInt → a ≠ byteIndex s.cfg p c) →
          memRead d'.ram a = memRead d.ram a

/-! ## The whole machine -/

/-- The invariant of rule R32 holds in the state after reset. -/
def Obligations.ResetMeetsTheInvariant : Prop := State.reset.Inv

/-- Every step keeps the invariant of rule R32: the memories canonical, `FB` written in READY, STATE not INITIALIZING
when the port is ready, SIDX and the counters in their ranges, no buffer write empty or above MTS. -/
def Obligations.StepKeepsTheInvariant : Prop := ∀ s t : State, s.Inv → step s = .next t → t.Inv

/-- Rule R32: from a state that meets the invariant no step reads an unspecified byte: no step faults, none is refused. -/
def Obligations.InvariantStatesNeverStop : Prop := ∀ s : State, s.Inv → ∃ t, step s = .next t

/-- Rule R151: STATE changes only by reset, or by a CONSTRUCT accepted in UNINIT: to READY when it answers OK, to FAILED
when it answers TRANSPORT_ERROR, to INITIALIZING while it waits. -/
def Obligations.StateChangesOnlyByConstructAndReset : Prop :=
  ∀ s t : State, step s = .next t →
    t.mode = s.mode ∨
    (s.TakesReset ∧ t.mode = .uninit) ∨
    (∃ w rest o, s.accepts w rest ∧ decode w = .ok (.construct o) ∧ s.mode = .uninit ∧
      ((t.mode = .ready ∧ t.busy = false ∧ t.respStatus = .ok) ∨
       (t.mode = .failed ∧ t.busy = false ∧ t.respStatus = .transportError) ∨
       (t.mode = .initializing ∧ t.busy = true ∧ t.responses = s.responses)))

/-- Rule R26: DEV_ADDR is written only by CONSTRUCT (in UNINIT, with OPX[6:0] when OPOVR is 1 and DEV_ADDR_DEFAULT
otherwise) and by reset. -/
def Obligations.DeviceAddressWrittenOnlyByConstructAndReset : Prop :=
  ∀ s t : State, step s = .next t →
    t.devAddr = s.devAddr ∨
    (s.TakesReset ∧ t.devAddr = 0x3C) ∨
    (∃ w rest o, s.accepts w rest ∧ decode w = .ok (.construct o) ∧ s.mode = .uninit ∧
      t.devAddr = if o.ovr then o.x.extractLsb' 0 7 else s.cfg.devAddrDefault)

/-- Rule R21: `FB` is written only by CONSTRUCT, CLEAR, SET_PIXEL and CLEAR_RECT. At reset it becomes unspecified (rules
R31, R165): that no byte of it then has a value is the model's choice (log 8). -/
def Obligations.FramebufferWrittenOnlyByItsFourCommands : Prop :=
  ∀ s t : State, step s = .next t →
    t.fb = s.fb ∨ (s.TakesReset ∧ ∀ i, memRead t.fb i = none) ∨
    ∃ w rest o, s.accepts w rest ∧
      (decode w = .ok (.construct o) ∨ decode w = .ok (.clear o) ∨ decode w = .ok (.setPixel o) ∨
        decode w = .ok (.clearRect o))

/-- Rules R68, R69, R135, R178: a step only adds to the trace; every transaction it adds carries DEV_ADDR (the one of
the state before, or the one a CONSTRUCT has just set; the one of the state after, unless reset is taken) and goes to
REG_COMMAND (a byte) or to REG_DATA (a buffer of 1 to MTS bytes, with its length); all but the last were answered ok. -/
def Obligations.StepIssuesWellShapedTransactions : Prop :=
  ∀ s t : State, step s = .next t →
    ∃ es dev, t.trace = s.trace ++ es ∧ (∀ e ∈ es, entryWellShaped s.cfg dev e = true) ∧
      (∀ e ∈ es.dropLast, e.answer = .ok) ∧ (¬s.TakesReset → dev = t.devAddr) ∧
      (dev = s.devAddr ∨
        ∃ w o, s.presents w ∧ decode w = .ok (.construct o) ∧ s.mode = .uninit ∧ dev = constructAddr s.cfg o)

/-- Rule R66: an accepted word, legal or not, produces exactly one response, which stands in RESP and leaves the port
ready, its data 0 unless its status is OK; or, if a transaction is never answered (rule R10), no response and a busy
port. -/
def Obligations.ExactlyOneResponseForAnAcceptedWord : Prop :=
  ∀ (s t : State) (w : CommandWord) (rest : List Input), s.accepts w rest → step s = .next t →
    (t.busy = false ∧ t.respPending = true ∧ t.responses = s.responses ++ [⟨t.respStatus, t.respData⟩] ∧
      (t.respStatus ≠ .ok → t.respData = 0)) ∨
    (t.busy = true ∧ t.respPending = false ∧ t.responses = s.responses ∧
      t.trace.getLast?.map TraceEntry.answer = some .never)

/-- Rules R20, R61, R115: after an accepted word the operand registers hold its fields, or (0, 0, W, H) after an
UPDATE_FULL that ran. -/
def Obligations.OperandRegistersHoldTheWordsFields : Prop :=
  ∀ (s t : State) (w : CommandWord) (rest : List Input), s.accepts w rest → step s = .next t →
    t.opon = w.getLsbD 64 ∧ t.opovr = w.getLsbD 65 ∧
    ((∃ o, decode w = .ok (.updateFull o) ∧ s.mode = .ready ∧ t.opx = 0 ∧ t.opy = 0 ∧
        t.opw = BitVec.ofNat 16 s.cfg.width ∧ t.oph = BitVec.ofNat 16 s.cfg.height) ∨
     ((∀ o, decode w = .ok (.updateFull o) → s.mode ≠ .ready) ∧
      t.opx = w.extractLsb' 48 16 ∧ t.opy = w.extractLsb' 32 16 ∧ t.opw = w.extractLsb' 16 16 ∧
      t.oph = w.extractLsb' 0 16))

/-- Rule R63 d: a field a command does not use has no effect: two words that agree on the opcode and the used fields
have the same outcome in every state, up to the operand registers themselves. -/
def Obligations.UnusedFieldsHaveNoEffect : Prop :=
  ∀ (i j : Instr) (s : State), sameUsed i j → forgetOperands (exec i s) = forgetOperands (exec j s)
end

