-- ==== Sys2Proof/Laws/State.lean ====
section
/-! SUPPORT. One lemma per field of State for each shared update of the state, so that no later proof unfolds a record
update. -/

namespace Sys2Proof.Machine

/-! ## Acceptance (rules R61, R64) -/

@[simp] theorem accept_cfg (o : Operands) (s : State) : (accept o s).cfg = s.cfg := rfl
@[simp] theorem accept_fb (o : Operands) (s : State) : (accept o s).fb = s.fb := rfl
@[simp] theorem accept_scratch (o : Operands) (s : State) : (accept o s).scratch = s.scratch := rfl
@[simp] theorem accept_sidx (o : Operands) (s : State) : (accept o s).sidx = s.sidx := rfl
@[simp] theorem accept_mode (o : Operands) (s : State) : (accept o s).mode = s.mode := rfl
@[simp] theorem accept_devAddr (o : Operands) (s : State) : (accept o s).devAddr = s.devAddr := rfl
@[simp] theorem accept_respStatus (o : Operands) (s : State) : (accept o s).respStatus = s.respStatus := rfl
@[simp] theorem accept_respData (o : Operands) (s : State) : (accept o s).respData = s.respData := rfl
@[simp] theorem accept_respPending (o : Operands) (s : State) : (accept o s).respPending = false := rfl
@[simp] theorem accept_busy (o : Operands) (s : State) : (accept o s).busy = true := rfl
@[simp] theorem accept_opx (o : Operands) (s : State) : (accept o s).opx = o.x := rfl
@[simp] theorem accept_opy (o : Operands) (s : State) : (accept o s).opy = o.y := rfl
@[simp] theorem accept_opw (o : Operands) (s : State) : (accept o s).opw = o.w := rfl
@[simp] theorem accept_oph (o : Operands) (s : State) : (accept o s).oph = o.h := rfl
@[simp] theorem accept_opon (o : Operands) (s : State) : (accept o s).opon = o.on := rfl
@[simp] theorem accept_opovr (o : Operands) (s : State) : (accept o s).opovr = o.ovr := rfl
@[simp] theorem accept_seqIdx (o : Operands) (s : State) : (accept o s).seqIdx = s.seqIdx := rfl
@[simp] theorem accept_page (o : Operands) (s : State) : (accept o s).page = s.page := rfl
@[simp] theorem accept_col (o : Operands) (s : State) : (accept o s).col = s.col := rfl
@[simp] theorem accept_startCol (o : Operands) (s : State) : (accept o s).startCol = s.startCol := rfl
@[simp] theorem accept_endCol (o : Operands) (s : State) : (accept o s).endCol = s.endCol := rfl
@[simp] theorem accept_startPage (o : Operands) (s : State) : (accept o s).startPage = s.startPage := rfl
@[simp] theorem accept_endPage (o : Operands) (s : State) : (accept o s).endPage = s.endPage := rfl
@[simp] theorem accept_inputs (o : Operands) (s : State) : (accept o s).inputs = s.inputs := rfl
@[simp] theorem accept_answers (o : Operands) (s : State) : (accept o s).answers = s.answers := rfl
@[simp] theorem accept_draws (o : Operands) (s : State) : (accept o s).draws = s.draws := rfl
@[simp] theorem accept_trace (o : Operands) (s : State) : (accept o s).trace = s.trace := rfl
@[simp] theorem accept_responses (o : Operands) (s : State) : (accept o s).responses = s.responses := rfl

/-! ## The end of a command (rule R66) -/

@[simp] theorem respond_cfg (st : Status) (d : BitVec 16) (s : State) : (respond st d s).cfg = s.cfg := rfl
@[simp] theorem respond_fb (st : Status) (d : BitVec 16) (s : State) : (respond st d s).fb = s.fb := rfl
@[simp] theorem respond_scratch (st : Status) (d : BitVec 16) (s : State) : (respond st d s).scratch = s.scratch := rfl
@[simp] theorem respond_sidx (st : Status) (d : BitVec 16) (s : State) : (respond st d s).sidx = s.sidx := rfl
@[simp] theorem respond_mode (st : Status) (d : BitVec 16) (s : State) : (respond st d s).mode = s.mode := rfl
@[simp] theorem respond_devAddr (st : Status) (d : BitVec 16) (s : State) : (respond st d s).devAddr = s.devAddr := rfl
@[simp] theorem respond_respStatus (st : Status) (d : BitVec 16) (s : State) : (respond st d s).respStatus = st := rfl
@[simp] theorem respond_respData (st : Status) (d : BitVec 16) (s : State) : (respond st d s).respData = d := rfl
@[simp] theorem respond_respPending (st : Status) (d : BitVec 16) (s : State) : (respond st d s).respPending = true := rfl
@[simp] theorem respond_busy (st : Status) (d : BitVec 16) (s : State) : (respond st d s).busy = false := rfl
@[simp] theorem respond_opx (st : Status) (d : BitVec 16) (s : State) : (respond st d s).opx = s.opx := rfl
@[simp] theorem respond_opy (st : Status) (d : BitVec 16) (s : State) : (respond st d s).opy = s.opy := rfl
@[simp] theorem respond_opw (st : Status) (d : BitVec 16) (s : State) : (respond st d s).opw = s.opw := rfl
@[simp] theorem respond_oph (st : Status) (d : BitVec 16) (s : State) : (respond st d s).oph = s.oph := rfl
@[simp] theorem respond_opon (st : Status) (d : BitVec 16) (s : State) : (respond st d s).opon = s.opon := rfl
@[simp] theorem respond_opovr (st : Status) (d : BitVec 16) (s : State) : (respond st d s).opovr = s.opovr := rfl
@[simp] theorem respond_seqIdx (st : Status) (d : BitVec 16) (s : State) : (respond st d s).seqIdx = s.seqIdx := rfl
@[simp] theorem respond_page (st : Status) (d : BitVec 16) (s : State) : (respond st d s).page = s.page := rfl
@[simp] theorem respond_col (st : Status) (d : BitVec 16) (s : State) : (respond st d s).col = s.col := rfl
@[simp] theorem respond_startCol (st : Status) (d : BitVec 16) (s : State) : (respond st d s).startCol = s.startCol := rfl
@[simp] theorem respond_endCol (st : Status) (d : BitVec 16) (s : State) : (respond st d s).endCol = s.endCol := rfl
@[simp] theorem respond_startPage (st : Status) (d : BitVec 16) (s : State) : (respond st d s).startPage = s.startPage := rfl
@[simp] theorem respond_endPage (st : Status) (d : BitVec 16) (s : State) : (respond st d s).endPage = s.endPage := rfl
@[simp] theorem respond_inputs (st : Status) (d : BitVec 16) (s : State) : (respond st d s).inputs = s.inputs := rfl
@[simp] theorem respond_answers (st : Status) (d : BitVec 16) (s : State) : (respond st d s).answers = s.answers := rfl
@[simp] theorem respond_draws (st : Status) (d : BitVec 16) (s : State) : (respond st d s).draws = s.draws := rfl
@[simp] theorem respond_trace (st : Status) (d : BitVec 16) (s : State) : (respond st d s).trace = s.trace := rfl
@[simp] theorem respond_responses (st : Status) (d : BitVec 16) (s : State) : (respond st d s).responses = s.responses ++ [⟨st, d⟩] := rfl

/-! ## Reset (rule R165) -/

@[simp] theorem resetBlock_cfg (s : State) : (resetBlock s).cfg = s.cfg := rfl
@[simp] theorem resetBlock_fb (s : State) : (resetBlock s).fb = [] := rfl
@[simp] theorem resetBlock_scratch (s : State) : (resetBlock s).scratch = [] := rfl
@[simp] theorem resetBlock_sidx (s : State) : (resetBlock s).sidx = 0 := rfl
@[simp] theorem resetBlock_mode (s : State) : (resetBlock s).mode = .uninit := rfl
@[simp] theorem resetBlock_devAddr (s : State) : (resetBlock s).devAddr = 0x3C := rfl
@[simp] theorem resetBlock_respStatus (s : State) : (resetBlock s).respStatus = .ok := rfl
@[simp] theorem resetBlock_respData (s : State) : (resetBlock s).respData = 0 := rfl
@[simp] theorem resetBlock_respPending (s : State) : (resetBlock s).respPending = false := rfl
@[simp] theorem resetBlock_busy (s : State) : (resetBlock s).busy = false := rfl
@[simp] theorem resetBlock_opx (s : State) : (resetBlock s).opx = 0 := rfl
@[simp] theorem resetBlock_opy (s : State) : (resetBlock s).opy = 0 := rfl
@[simp] theorem resetBlock_opw (s : State) : (resetBlock s).opw = 0 := rfl
@[simp] theorem resetBlock_oph (s : State) : (resetBlock s).oph = 0 := rfl
@[simp] theorem resetBlock_opon (s : State) : (resetBlock s).opon = false := rfl
@[simp] theorem resetBlock_opovr (s : State) : (resetBlock s).opovr = false := rfl
@[simp] theorem resetBlock_seqIdx (s : State) : (resetBlock s).seqIdx = 0 := rfl
@[simp] theorem resetBlock_page (s : State) : (resetBlock s).page = 0 := rfl
@[simp] theorem resetBlock_col (s : State) : (resetBlock s).col = 0 := rfl
@[simp] theorem resetBlock_startCol (s : State) : (resetBlock s).startCol = 0 := rfl
@[simp] theorem resetBlock_endCol (s : State) : (resetBlock s).endCol = 0 := rfl
@[simp] theorem resetBlock_startPage (s : State) : (resetBlock s).startPage = 0 := rfl
@[simp] theorem resetBlock_endPage (s : State) : (resetBlock s).endPage = 0 := rfl
@[simp] theorem resetBlock_inputs (s : State) : (resetBlock s).inputs = s.inputs := rfl
@[simp] theorem resetBlock_answers (s : State) : (resetBlock s).answers = s.answers := rfl
@[simp] theorem resetBlock_draws (s : State) : (resetBlock s).draws = s.draws := rfl
@[simp] theorem resetBlock_trace (s : State) : (resetBlock s).trace = s.trace := rfl
@[simp] theorem resetBlock_responses (s : State) : (resetBlock s).responses = s.responses := rfl

/-! ## Answers taken (rule R9) -/

@[simp] theorem spent_cfg (s : State) (n : Nat) : (s.spent n).cfg = s.cfg := rfl
@[simp] theorem spent_fb (s : State) (n : Nat) : (s.spent n).fb = s.fb := rfl
@[simp] theorem spent_scratch (s : State) (n : Nat) : (s.spent n).scratch = s.scratch := rfl
@[simp] theorem spent_sidx (s : State) (n : Nat) : (s.spent n).sidx = s.sidx := rfl
@[simp] theorem spent_mode (s : State) (n : Nat) : (s.spent n).mode = s.mode := rfl
@[simp] theorem spent_devAddr (s : State) (n : Nat) : (s.spent n).devAddr = s.devAddr := rfl
@[simp] theorem spent_respStatus (s : State) (n : Nat) : (s.spent n).respStatus = s.respStatus := rfl
@[simp] theorem spent_respData (s : State) (n : Nat) : (s.spent n).respData = s.respData := rfl
@[simp] theorem spent_respPending (s : State) (n : Nat) : (s.spent n).respPending = s.respPending := rfl
@[simp] theorem spent_busy (s : State) (n : Nat) : (s.spent n).busy = s.busy := rfl
@[simp] theorem spent_opx (s : State) (n : Nat) : (s.spent n).opx = s.opx := rfl
@[simp] theorem spent_opy (s : State) (n : Nat) : (s.spent n).opy = s.opy := rfl
@[simp] theorem spent_opw (s : State) (n : Nat) : (s.spent n).opw = s.opw := rfl
@[simp] theorem spent_oph (s : State) (n : Nat) : (s.spent n).oph = s.oph := rfl
@[simp] theorem spent_opon (s : State) (n : Nat) : (s.spent n).opon = s.opon := rfl
@[simp] theorem spent_opovr (s : State) (n : Nat) : (s.spent n).opovr = s.opovr := rfl
@[simp] theorem spent_seqIdx (s : State) (n : Nat) : (s.spent n).seqIdx = s.seqIdx := rfl
@[simp] theorem spent_page (s : State) (n : Nat) : (s.spent n).page = s.page := rfl
@[simp] theorem spent_col (s : State) (n : Nat) : (s.spent n).col = s.col := rfl
@[simp] theorem spent_startCol (s : State) (n : Nat) : (s.spent n).startCol = s.startCol := rfl
@[simp] theorem spent_endCol (s : State) (n : Nat) : (s.spent n).endCol = s.endCol := rfl
@[simp] theorem spent_startPage (s : State) (n : Nat) : (s.spent n).startPage = s.startPage := rfl
@[simp] theorem spent_endPage (s : State) (n : Nat) : (s.spent n).endPage = s.endPage := rfl
@[simp] theorem spent_inputs (s : State) (n : Nat) : (s.spent n).inputs = s.inputs := rfl
@[simp] theorem spent_answers (s : State) (n : Nat) : (s.spent n).answers = s.answers.drop n := rfl
@[simp] theorem spent_draws (s : State) (n : Nat) : (s.spent n).draws = s.draws + (n - s.answers.length) := rfl
@[simp] theorem spent_trace (s : State) (n : Nat) : (s.spent n).trace = s.trace := rfl
@[simp] theorem spent_responses (s : State) (n : Nat) : (s.spent n).responses = s.responses := rfl

/-! ## Trace entries added (rule R9) -/

@[simp] theorem logged_cfg (s : State) (es : List TraceEntry) : (s.logged es).cfg = s.cfg := rfl
@[simp] theorem logged_fb (s : State) (es : List TraceEntry) : (s.logged es).fb = s.fb := rfl
@[simp] theorem logged_scratch (s : State) (es : List TraceEntry) : (s.logged es).scratch = s.scratch := rfl
@[simp] theorem logged_sidx (s : State) (es : List TraceEntry) : (s.logged es).sidx = s.sidx := rfl
@[simp] theorem logged_mode (s : State) (es : List TraceEntry) : (s.logged es).mode = s.mode := rfl
@[simp] theorem logged_devAddr (s : State) (es : List TraceEntry) : (s.logged es).devAddr = s.devAddr := rfl
@[simp] theorem logged_respStatus (s : State) (es : List TraceEntry) : (s.logged es).respStatus = s.respStatus := rfl
@[simp] theorem logged_respData (s : State) (es : List TraceEntry) : (s.logged es).respData = s.respData := rfl
@[simp] theorem logged_respPending (s : State) (es : List TraceEntry) : (s.logged es).respPending = s.respPending := rfl
@[simp] theorem logged_busy (s : State) (es : List TraceEntry) : (s.logged es).busy = s.busy := rfl
@[simp] theorem logged_opx (s : State) (es : List TraceEntry) : (s.logged es).opx = s.opx := rfl
@[simp] theorem logged_opy (s : State) (es : List TraceEntry) : (s.logged es).opy = s.opy := rfl
@[simp] theorem logged_opw (s : State) (es : List TraceEntry) : (s.logged es).opw = s.opw := rfl
@[simp] theorem logged_oph (s : State) (es : List TraceEntry) : (s.logged es).oph = s.oph := rfl
@[simp] theorem logged_opon (s : State) (es : List TraceEntry) : (s.logged es).opon = s.opon := rfl
@[simp] theorem logged_opovr (s : State) (es : List TraceEntry) : (s.logged es).opovr = s.opovr := rfl
@[simp] theorem logged_seqIdx (s : State) (es : List TraceEntry) : (s.logged es).seqIdx = s.seqIdx := rfl
@[simp] theorem logged_page (s : State) (es : List TraceEntry) : (s.logged es).page = s.page := rfl
@[simp] theorem logged_col (s : State) (es : List TraceEntry) : (s.logged es).col = s.col := rfl
@[simp] theorem logged_startCol (s : State) (es : List TraceEntry) : (s.logged es).startCol = s.startCol := rfl
@[simp] theorem logged_endCol (s : State) (es : List TraceEntry) : (s.logged es).endCol = s.endCol := rfl
@[simp] theorem logged_startPage (s : State) (es : List TraceEntry) : (s.logged es).startPage = s.startPage := rfl
@[simp] theorem logged_endPage (s : State) (es : List TraceEntry) : (s.logged es).endPage = s.endPage := rfl
@[simp] theorem logged_inputs (s : State) (es : List TraceEntry) : (s.logged es).inputs = s.inputs := rfl
@[simp] theorem logged_answers (s : State) (es : List TraceEntry) : (s.logged es).answers = s.answers := rfl
@[simp] theorem logged_draws (s : State) (es : List TraceEntry) : (s.logged es).draws = s.draws := rfl
@[simp] theorem logged_trace (s : State) (es : List TraceEntry) : (s.logged es).trace = s.trace ++ es := rfl
@[simp] theorem logged_responses (s : State) (es : List TraceEntry) : (s.logged es).responses = s.responses := rfl

/-! ## What a streaming phase works on (rules R22, R23) -/

@[simp] theorem streamed_cfg (s : State) (m : Memory) (i p c : Nat) : (s.streamed m i p c).cfg = s.cfg := rfl
@[simp] theorem streamed_fb (s : State) (m : Memory) (i p c : Nat) : (s.streamed m i p c).fb = s.fb := rfl
@[simp] theorem streamed_scratch (s : State) (m : Memory) (i p c : Nat) : (s.streamed m i p c).scratch = m := rfl
@[simp] theorem streamed_sidx (s : State) (m : Memory) (i p c : Nat) : (s.streamed m i p c).sidx = i := rfl
@[simp] theorem streamed_mode (s : State) (m : Memory) (i p c : Nat) : (s.streamed m i p c).mode = s.mode := rfl
@[simp] theorem streamed_devAddr (s : State) (m : Memory) (i p c : Nat) : (s.streamed m i p c).devAddr = s.devAddr := rfl
@[simp] theorem streamed_respStatus (s : State) (m : Memory) (i p c : Nat) : (s.streamed m i p c).respStatus = s.respStatus := rfl
@[simp] theorem streamed_respData (s : State) (m : Memory) (i p c : Nat) : (s.streamed m i p c).respData = s.respData := rfl
@[simp] theorem streamed_respPending (s : State) (m : Memory) (i p c : Nat) : (s.streamed m i p c).respPending = s.respPending := rfl
@[simp] theorem streamed_busy (s : State) (m : Memory) (i p c : Nat) : (s.streamed m i p c).busy = s.busy := rfl
@[simp] theorem streamed_opx (s : State) (m : Memory) (i p c : Nat) : (s.streamed m i p c).opx = s.opx := rfl
@[simp] theorem streamed_opy (s : State) (m : Memory) (i p c : Nat) : (s.streamed m i p c).opy = s.opy := rfl
@[simp] theorem streamed_opw (s : State) (m : Memory) (i p c : Nat) : (s.streamed m i p c).opw = s.opw := rfl
@[simp] theorem streamed_oph (s : State) (m : Memory) (i p c : Nat) : (s.streamed m i p c).oph = s.oph := rfl
@[simp] theorem streamed_opon (s : State) (m : Memory) (i p c : Nat) : (s.streamed m i p c).opon = s.opon := rfl
@[simp] theorem streamed_opovr (s : State) (m : Memory) (i p c : Nat) : (s.streamed m i p c).opovr = s.opovr := rfl
@[simp] theorem streamed_seqIdx (s : State) (m : Memory) (i p c : Nat) : (s.streamed m i p c).seqIdx = s.seqIdx := rfl
@[simp] theorem streamed_page (s : State) (m : Memory) (i p c : Nat) : (s.streamed m i p c).page = p := rfl
@[simp] theorem streamed_col (s : State) (m : Memory) (i p c : Nat) : (s.streamed m i p c).col = c := rfl
@[simp] theorem streamed_startCol (s : State) (m : Memory) (i p c : Nat) : (s.streamed m i p c).startCol = s.startCol := rfl
@[simp] theorem streamed_endCol (s : State) (m : Memory) (i p c : Nat) : (s.streamed m i p c).endCol = s.endCol := rfl
@[simp] theorem streamed_startPage (s : State) (m : Memory) (i p c : Nat) : (s.streamed m i p c).startPage = s.startPage := rfl
@[simp] theorem streamed_endPage (s : State) (m : Memory) (i p c : Nat) : (s.streamed m i p c).endPage = s.endPage := rfl
@[simp] theorem streamed_inputs (s : State) (m : Memory) (i p c : Nat) : (s.streamed m i p c).inputs = s.inputs := rfl
@[simp] theorem streamed_answers (s : State) (m : Memory) (i p c : Nat) : (s.streamed m i p c).answers = s.answers := rfl
@[simp] theorem streamed_draws (s : State) (m : Memory) (i p c : Nat) : (s.streamed m i p c).draws = s.draws := rfl
@[simp] theorem streamed_trace (s : State) (m : Memory) (i p c : Nat) : (s.streamed m i p c).trace = s.trace := rfl
@[simp] theorem streamed_responses (s : State) (m : Memory) (i p c : Nat) : (s.streamed m i p c).responses = s.responses := rfl

/-! ## The operand registers of UPDATE_FULL (rule R115) -/

@[simp] theorem loadWholeSurface_cfg (s : State) : (loadWholeSurface s).cfg = s.cfg := rfl
@[simp] theorem loadWholeSurface_fb (s : State) : (loadWholeSurface s).fb = s.fb := rfl
@[simp] theorem loadWholeSurface_scratch (s : State) : (loadWholeSurface s).scratch = s.scratch := rfl
@[simp] theorem loadWholeSurface_sidx (s : State) : (loadWholeSurface s).sidx = s.sidx := rfl
@[simp] theorem loadWholeSurface_mode (s : State) : (loadWholeSurface s).mode = s.mode := rfl
@[simp] theorem loadWholeSurface_devAddr (s : State) : (loadWholeSurface s).devAddr = s.devAddr := rfl
@[simp] theorem loadWholeSurface_respStatus (s : State) : (loadWholeSurface s).respStatus = s.respStatus := rfl
@[simp] theorem loadWholeSurface_respData (s : State) : (loadWholeSurface s).respData = s.respData := rfl
@[simp] theorem loadWholeSurface_respPending (s : State) : (loadWholeSurface s).respPending = s.respPending := rfl
@[simp] theorem loadWholeSurface_busy (s : State) : (loadWholeSurface s).busy = s.busy := rfl
@[simp] theorem loadWholeSurface_opx (s : State) : (loadWholeSurface s).opx = 0 := rfl
@[simp] theorem loadWholeSurface_opy (s : State) : (loadWholeSurface s).opy = 0 := rfl
@[simp] theorem loadWholeSurface_opw (s : State) : (loadWholeSurface s).opw = BitVec.ofNat 16 s.cfg.width := rfl
@[simp] theorem loadWholeSurface_oph (s : State) : (loadWholeSurface s).oph = BitVec.ofNat 16 s.cfg.height := rfl
@[simp] theorem loadWholeSurface_opon (s : State) : (loadWholeSurface s).opon = s.opon := rfl
@[simp] theorem loadWholeSurface_opovr (s : State) : (loadWholeSurface s).opovr = s.opovr := rfl
@[simp] theorem loadWholeSurface_seqIdx (s : State) : (loadWholeSurface s).seqIdx = s.seqIdx := rfl
@[simp] theorem loadWholeSurface_page (s : State) : (loadWholeSurface s).page = s.page := rfl
@[simp] theorem loadWholeSurface_col (s : State) : (loadWholeSurface s).col = s.col := rfl
@[simp] theorem loadWholeSurface_startCol (s : State) : (loadWholeSurface s).startCol = s.startCol := rfl
@[simp] theorem loadWholeSurface_endCol (s : State) : (loadWholeSurface s).endCol = s.endCol := rfl
@[simp] theorem loadWholeSurface_startPage (s : State) : (loadWholeSurface s).startPage = s.startPage := rfl
@[simp] theorem loadWholeSurface_endPage (s : State) : (loadWholeSurface s).endPage = s.endPage := rfl
@[simp] theorem loadWholeSurface_inputs (s : State) : (loadWholeSurface s).inputs = s.inputs := rfl
@[simp] theorem loadWholeSurface_answers (s : State) : (loadWholeSurface s).answers = s.answers := rfl
@[simp] theorem loadWholeSurface_draws (s : State) : (loadWholeSurface s).draws = s.draws := rfl
@[simp] theorem loadWholeSurface_trace (s : State) : (loadWholeSurface s).trace = s.trace := rfl
@[simp] theorem loadWholeSurface_responses (s : State) : (loadWholeSurface s).responses = s.responses := rfl

/-! ## The window registers of an accepted rectangle (rules R24, R118) -/

@[simp] theorem windowed_cfg (s : State) (x y w h : Int) :
    (s.windowed x y w h).cfg = s.cfg := rfl
@[simp] theorem windowed_fb (s : State) (x y w h : Int) :
    (s.windowed x y w h).fb = s.fb := rfl
@[simp] theorem windowed_scratch (s : State) (x y w h : Int) :
    (s.windowed x y w h).scratch = s.scratch := rfl
@[simp] theorem windowed_sidx (s : State) (x y w h : Int) :
    (s.windowed x y w h).sidx = s.sidx := rfl
@[simp] theorem windowed_mode (s : State) (x y w h : Int) :
    (s.windowed x y w h).mode = s.mode := rfl
@[simp] theorem windowed_devAddr (s : State) (x y w h : Int) :
    (s.windowed x y w h).devAddr = s.devAddr := rfl
@[simp] theorem windowed_respStatus (s : State) (x y w h : Int) :
    (s.windowed x y w h).respStatus = s.respStatus := rfl
@[simp] theorem windowed_respData (s : State) (x y w h : Int) :
    (s.windowed x y w h).respData = s.respData := rfl
@[simp] theorem windowed_respPending (s : State) (x y w h : Int) :
    (s.windowed x y w h).respPending = s.respPending := rfl
@[simp] theorem windowed_busy (s : State) (x y w h : Int) :
    (s.windowed x y w h).busy = s.busy := rfl
@[simp] theorem windowed_opx (s : State) (x y w h : Int) :
    (s.windowed x y w h).opx = s.opx := rfl
@[simp] theorem windowed_opy (s : State) (x y w h : Int) :
    (s.windowed x y w h).opy = s.opy := rfl
@[simp] theorem windowed_opw (s : State) (x y w h : Int) :
    (s.windowed x y w h).opw = s.opw := rfl
@[simp] theorem windowed_oph (s : State) (x y w h : Int) :
    (s.windowed x y w h).oph = s.oph := rfl
@[simp] theorem windowed_opon (s : State) (x y w h : Int) :
    (s.windowed x y w h).opon = s.opon := rfl
@[simp] theorem windowed_opovr (s : State) (x y w h : Int) :
    (s.windowed x y w h).opovr = s.opovr := rfl
@[simp] theorem windowed_seqIdx (s : State) (x y w h : Int) :
    (s.windowed x y w h).seqIdx = s.seqIdx := rfl
@[simp] theorem windowed_page (s : State) (x y w h : Int) :
    (s.windowed x y w h).page = s.page := rfl
@[simp] theorem windowed_col (s : State) (x y w h : Int) :
    (s.windowed x y w h).col = s.col := rfl
@[simp] theorem windowed_startCol (s : State) (x y w h : Int) :
    (s.windowed x y w h).startCol = BitVec.ofNat 8 (startColOf x) := rfl
@[simp] theorem windowed_endCol (s : State) (x y w h : Int) :
    (s.windowed x y w h).endCol = BitVec.ofNat 8 (endColOf x w) := rfl
@[simp] theorem windowed_startPage (s : State) (x y w h : Int) :
    (s.windowed x y w h).startPage = BitVec.ofNat 8 (startPageOf y) := rfl
@[simp] theorem windowed_endPage (s : State) (x y w h : Int) :
    (s.windowed x y w h).endPage = BitVec.ofNat 8 (endPageOf y h) := rfl
@[simp] theorem windowed_inputs (s : State) (x y w h : Int) :
    (s.windowed x y w h).inputs = s.inputs := rfl
@[simp] theorem windowed_answers (s : State) (x y w h : Int) :
    (s.windowed x y w h).answers = s.answers := rfl
@[simp] theorem windowed_draws (s : State) (x y w h : Int) :
    (s.windowed x y w h).draws = s.draws := rfl
@[simp] theorem windowed_trace (s : State) (x y w h : Int) :
    (s.windowed x y w h).trace = s.trace := rfl
@[simp] theorem windowed_responses (s : State) (x y w h : Int) :
    (s.windowed x y w h).responses = s.responses := rfl

/-! ## An answered command (rules R61, R64, R66) -/

@[simp] theorem completed_cfg (s : State) (o : Operands) (st : Status) (d : BitVec 16) :
    (s.completed o st d).cfg = s.cfg := rfl
@[simp] theorem completed_scratch (s : State) (o : Operands) (st : Status) (d : BitVec 16) :
    (s.completed o st d).scratch = s.scratch := rfl
@[simp] theorem completed_sidx (s : State) (o : Operands) (st : Status) (d : BitVec 16) :
    (s.completed o st d).sidx = s.sidx := rfl
@[simp] theorem completed_mode (s : State) (o : Operands) (st : Status) (d : BitVec 16) :
    (s.completed o st d).mode = s.mode := rfl
@[simp] theorem completed_devAddr (s : State) (o : Operands) (st : Status) (d : BitVec 16) :
    (s.completed o st d).devAddr = s.devAddr := rfl
@[simp] theorem completed_respStatus (s : State) (o : Operands) (st : Status) (d : BitVec 16) :
    (s.completed o st d).respStatus = st := rfl
@[simp] theorem completed_respData (s : State) (o : Operands) (st : Status) (d : BitVec 16) :
    (s.completed o st d).respData = d := rfl
@[simp] theorem completed_respPending (s : State) (o : Operands) (st : Status) (d : BitVec 16) :
    (s.completed o st d).respPending = true := rfl
@[simp] theorem completed_busy (s : State) (o : Operands) (st : Status) (d : BitVec 16) :
    (s.completed o st d).busy = false := rfl
@[simp] theorem completed_opx (s : State) (o : Operands) (st : Status) (d : BitVec 16) :
    (s.completed o st d).opx = o.x := rfl
@[simp] theorem completed_opy (s : State) (o : Operands) (st : Status) (d : BitVec 16) :
    (s.completed o st d).opy = o.y := rfl
@[simp] theorem completed_opw (s : State) (o : Operands) (st : Status) (d : BitVec 16) :
    (s.completed o st d).opw = o.w := rfl
@[simp] theorem completed_oph (s : State) (o : Operands) (st : Status) (d : BitVec 16) :
    (s.completed o st d).oph = o.h := rfl
@[simp] theorem completed_opon (s : State) (o : Operands) (st : Status) (d : BitVec 16) :
    (s.completed o st d).opon = o.on := rfl
@[simp] theorem completed_opovr (s : State) (o : Operands) (st : Status) (d : BitVec 16) :
    (s.completed o st d).opovr = o.ovr := rfl
@[simp] theorem completed_seqIdx (s : State) (o : Operands) (st : Status) (d : BitVec 16) :
    (s.completed o st d).seqIdx = s.seqIdx := rfl
@[simp] theorem completed_page (s : State) (o : Operands) (st : Status) (d : BitVec 16) :
    (s.completed o st d).page = s.page := rfl
@[simp] theorem completed_col (s : State) (o : Operands) (st : Status) (d : BitVec 16) :
    (s.completed o st d).col = s.col := rfl
@[simp] theorem completed_startCol (s : State) (o : Operands) (st : Status) (d : BitVec 16) :
    (s.completed o st d).startCol = s.startCol := rfl
@[simp] theorem completed_endCol (s : State) (o : Operands) (st : Status) (d : BitVec 16) :
    (s.completed o st d).endCol = s.endCol := rfl
@[simp] theorem completed_startPage (s : State) (o : Operands) (st : Status) (d : BitVec 16) :
    (s.completed o st d).startPage = s.startPage := rfl
@[simp] theorem completed_endPage (s : State) (o : Operands) (st : Status) (d : BitVec 16) :
    (s.completed o st d).endPage = s.endPage := rfl
@[simp] theorem completed_inputs (s : State) (o : Operands) (st : Status) (d : BitVec 16) :
    (s.completed o st d).inputs = s.inputs := rfl
@[simp] theorem completed_answers (s : State) (o : Operands) (st : Status) (d : BitVec 16) :
    (s.completed o st d).answers = s.answers := rfl
@[simp] theorem completed_draws (s : State) (o : Operands) (st : Status) (d : BitVec 16) :
    (s.completed o st d).draws = s.draws := rfl
@[simp] theorem completed_trace (s : State) (o : Operands) (st : Status) (d : BitVec 16) :
    (s.completed o st d).trace = s.trace := rfl
@[simp] theorem completed_responses (s : State) (o : Operands) (st : Status) (d : BitVec 16) :
    (s.completed o st d).responses = s.responses ++ [⟨st, d⟩] := rfl

/-! ## Equalities between the machine's updates and the statements' records -/

/-- An error is the response (code, 0) (rule R145). -/
theorem raise_eq (e : Status) (s : State) : raise e s = respond e 0 s := rfl

theorem accept_eq_loaded (o : Operands) (s : State) : accept o s = s.loaded o := rfl

/-- Acceptance followed by a response: the record the statements use. -/
@[simp] theorem respond_accept (o : Operands) (st : Status) (d : BitVec 16) (s : State) :
    respond st d (accept o s) = s.completed o st d := rfl

@[simp] theorem raise_accept (o : Operands) (e : Status) (s : State) :
    raise e (accept o s) = s.completed o e 0 := rfl

@[simp] theorem completed_fb (s : State) (o : Operands) (st : Status) (d : BitVec 16) :
    (s.completed o st d).fb = s.fb := rfl

/-- Two states are equal when they agree on the fields a streaming phase works on and on the rest. -/
theorem eq_of_streamed_eq {s t : State} (h : s.streamed [] 0 0 0 = t.streamed [] 0 0 0)
    (hm : s.scratch = t.scratch) (hi : s.sidx = t.sidx) (hp : s.page = t.page) (hc : s.col = t.col) : s = t := by
  cases s
  cases t
  simp only [State.streamed, State.mk.injEq] at h
  simp_all

/-! ## The command port (rules R64, R165) -/

/-- What the inputs give a step: nothing, a reset, or a word for a port that is not busy, to run or to cut short. -/
theorem fetch_cases (s : State) :
    (fetch s = .wait ∧ (s.inputs = [] ∨ s.busy = true ∧ .reset ∉ s.inputs)) ∨
    (∃ rest, s.TakesReset ∧ fetch s = .reset { s with inputs := rest }) ∨
    (∃ w rest, s.inputs = .command w :: rest ∧ s.busy = false ∧ fetch s = .word w { s with inputs := rest }) ∨
    (∃ w k rest, s.inputs = .resetDuring w k :: rest ∧ s.busy = false ∧
      fetch s = .interrupted w k { s with inputs := rest }) := by
  unfold fetch State.TakesReset
  cases hb : s.busy with
  | true => by_cases hr : .reset ∈ s.inputs <;> simp [hr]
  | false =>
    cases hs : s.inputs with
    | nil => simp
    | cons i rest => cases i <;> simp

/-- What a reset inside a command leaves: the state of `resetBlock`, but for the trace, of which a prefix of what the
command issued stays, and the environment's side. -/
theorem abandon_cases (k : Nat) (s t : State) :
    (k ≤ (t.trace.drop s.trace.length).length ∧
      abandon k s t = resetBlock ((s.spent k).logged ((t.trace.drop s.trace.length).take k))) ∨
    ((t.trace.drop s.trace.length).length < k ∧ abandon k s t = resetBlock t) := by
  unfold abandon
  by_cases h : k ≤ (t.trace.drop s.trace.length).length
  · exact .inl ⟨h, if_pos h⟩
  · exact .inr ⟨Nat.lt_of_not_le h, if_neg h⟩

/-- The fields that do not depend on when reset came (rule R165). -/
theorem abandon_frame (k : Nat) {s t : State} (hc : t.cfg = s.cfg) (hi : t.inputs = s.inputs) :
    ∃ as n tr rs, abandon k s t =
      { State.reset with cfg := s.cfg, inputs := s.inputs, answers := as, draws := n, trace := tr, responses := rs } := by
  rcases abandon_cases k s t with ⟨-, h⟩ | ⟨-, h⟩ <;> rw [h]
  · exact ⟨_, _, _, _, rfl⟩
  · refine ⟨t.answers, t.draws, t.trace, t.responses, ?_⟩
    rw [← hc, ← hi]
    rfl

end Sys2Proof.Machine
end

