-- ==== Sys2Proof/Laws/Bus.lean ====
section
/-! SUPPORT. The laws of the bus: what taking an answer, issuing one transaction and sending a list of transactions
can do. -/

namespace Sys2Proof.Machine

/-! ## Answers -/

@[simp] theorem spent_zero (s : State) : s.spent 0 = s := by simp [State.spent]

theorem spent_spent (s : State) (m n : Nat) : (s.spent m).spent n = s.spent (m + n) := by
  simp only [State.spent, List.drop_drop, List.length_drop]
  congr 1
  omega

theorem answerAt_spent (s : State) (n k : Nat) : (s.spent n).answerAt k = s.answerAt (n + k) := by
  simp only [State.answerAt, State.spent, List.getElem?_drop, List.length_drop]
  cases h : s.answers[n + k]? with
  | some a => rfl
  | none =>
    have := List.getElem?_eq_none_iff.mp h
    simp only
    rw [show s.draws + (n - s.answers.length) + (k - (s.answers.length - n)) = s.draws + (n + k - s.answers.length) by
      omega]

theorem takeAnswer_eq (s : State) : takeAnswer s = (s.answerAt 0, s.spent 1) := by
  unfold takeAnswer State.answerAt State.spent
  cases h : s.answers with
  | nil => simp
  | cons a rest => simp

/-- Issuing a transaction (rules R68 to R70): the next answer is taken and the transaction joins the trace once. -/
theorem issue_eq (t : Transaction) (s : State) :
    issue t s = (s.answerAt 0, (s.spent 1).logged [⟨t, s.answerAt 0⟩]) := by
  simp [issue, takeAnswer_eq, State.logged]

/-- What one transaction can do to a command (rules R11, R70): go on at `ok`, end it at `err`, leave it waiting. -/
theorem transact_eq (t : Transaction) (s : State) :
    transact t s =
      match s.answerAt 0 with
      | .ok => .run ((s.spent 1).logged [⟨t, .ok⟩])
      | .err => .raised .transportError ((s.spent 1).logged [⟨t, .err⟩])
      | .never => .hung ((s.spent 1).logged [⟨t, .never⟩]) := by
  simp only [transact, issue_eq]
  cases h : s.answerAt 0 <;> rfl

/-! ## The spec's view of a sequence of transactions -/

/-- Send transactions in order; stop at the first that is not answered `ok` (rule R49 b). -/
def deliver : List Transaction → State → Flow
  | [], s => .run s
  | t :: ts, s => (transact t s).andThen (deliver ts)

@[simp] theorem andThen_run (f : Flow) : f.andThen .run = f := by cases f <;> rfl

theorem andThen_assoc (f : Flow) (g k : State → Flow) :
    (f.andThen g).andThen k = f.andThen fun s => (g s).andThen k := by cases f <;> rfl

theorem deliver_append (ts us : List Transaction) (s : State) :
    deliver (ts ++ us) s = (deliver ts s).andThen (deliver us) := by
  induction ts generalizing s with
  | nil => rfl
  | cons t ts ih =>
    simp only [List.cons_append, deliver, andThen_assoc]
    congr 1
    funext s'
    exact ih s'

@[simp] theorem logged_nil (s : State) : s.logged [] = s := by simp [State.logged]

theorem logged_logged (s : State) (es fs : List TraceEntry) : (s.logged es).logged fs = s.logged (es ++ fs) := by
  simp [State.logged]

theorem spent_logged (s : State) (es : List TraceEntry) (n : Nat) : (s.logged es).spent n = (s.spent n).logged es := rfl

@[simp] theorem answerAt_logged (s : State) (es : List TraceEntry) (k : Nat) :
    (s.logged es).answerAt k = s.answerAt k := rfl

/-- All answered `ok`: everything was sent. -/
theorem deliver_allOk {ts : List Transaction} {s : State} (h : s.AllOk ts.length) :
    deliver ts s = .run ((s.spent ts.length).logged (okEntries ts)) := by
  induction ts generalizing s with
  | nil => simp [deliver, okEntries]
  | cons t ts ih =>
    have h0 := h 0 (by simp)
    simp only [deliver, transact_eq, h0, Flow.andThen]
    rw [ih]
    · simp only [spent_logged, spent_spent, logged_logged, okEntries, List.length_cons, List.map_cons]
      rw [Nat.add_comm 1]
      rfl
    · intro k hk
      rw [answerAt_logged, answerAt_spent, Nat.add_comm]
      exact h (k + 1) (by simp; omega)

/-- The k-th answer is the first that is not `ok`: the first k + 1 transactions were issued (rule R154). -/
theorem deliver_ended {ts : List Transaction} {s : State} {k : Nat} {a : Answer} (hk : k < ts.length)
    (h : s.AllOk k) (ha : s.answerAt k = a) (hne : a ≠ .ok) :
    deliver ts s =
      (if a = .err then Flow.raised .transportError else Flow.hung)
        ((s.spent (k + 1)).logged (endedEntries ts k a)) := by
  induction k generalizing ts s with
  | zero =>
    cases ts with
    | nil => simp at hk
    | cons t ts =>
      simp only [deliver, transact_eq, ha]
      cases a <;> simp_all [Flow.andThen, endedEntries, okEntries]
  | succ k ih =>
    cases ts with
    | nil => simp at hk
    | cons t ts =>
      have h0 := h 0 (by omega)
      simp only [deliver, transact_eq, h0, Flow.andThen]
      rw [ih (by simpa using hk)]
      · simp only [spent_logged, spent_spent, logged_logged, endedEntries, okEntries]
        rw [Nat.add_comm 1]
        simp
      · intro j hj
        rw [answerAt_logged, answerAt_spent, Nat.add_comm]
        exact h (j + 1) (by omega)
      · rw [answerAt_logged, answerAt_spent, Nat.add_comm]
        exact ha

/-- Either every one of the next `n` answers is `ok`, or there is a first that is not. -/
theorem answers_cases (s : State) (n : Nat) :
    s.AllOk n ∨ ∃ k a, k < n ∧ s.AllOk k ∧ s.answerAt k = a ∧ a ≠ .ok := by
  induction n with
  | zero => exact .inl fun k hk => by omega
  | succ n ih =>
    rcases ih with h | ⟨k, a, hk, h⟩
    · by_cases hn : s.answerAt n = .ok
      · refine .inl fun k hk => ?_
        rcases Nat.lt_succ_iff_lt_or_eq.mp hk with hlt | rfl
        · exact h k hlt
        · exact hn
      · exact .inr ⟨n, _, by omega, h, rfl, hn⟩
    · exact .inr ⟨k, a, by omega, h⟩

/-! ## CmdByte and SetWindow -/

/-- `SetWindow` sends six command bytes, read from the window registers, in the order of rule R104. -/
theorem setWindow_eq_deliver (s : State) :
    setWindow s =
      deliver
        ([s.cfg.cmdSetColumnAddr, s.startCol, s.endCol, s.cfg.cmdSetPageAddr, s.startPage, s.endPage].map
          (commandByteTx s)) s := by
  have key : ∀ (v : Byte) (u : State) (k l : State → Flow),
      (∀ u', u'.cfg = u.cfg → u'.devAddr = u.devAddr → u'.startCol = u.startCol → u'.endCol = u.endCol →
        u'.startPage = u.startPage → u'.endPage = u.endPage → k u' = l u') →
      (cmdByte v u).andThen k = (transact (commandByteTx u v) u).andThen l := by
    intro v u k l hkl
    simp only [cmdByte, transact_eq]
    cases u.answerAt 0 <;> simp only [Flow.andThen]
    apply hkl <;> rfl
  unfold setWindow
  simp only [List.map_cons, List.map_nil, deliver]
  apply key
  intro u1 c1 d1 a1 b1 e1 f1
  rw [show commandByteTx s s.startCol = commandByteTx u1 u1.startCol by simp [commandByteTx, *]]
  apply key
  intro u2 c2 d2 a2 b2 e2 f2
  rw [show commandByteTx s s.endCol = commandByteTx u2 u2.endCol by simp [commandByteTx, *]]
  apply key
  intro u3 c3 d3 a3 b3 e3 f3
  rw [show commandByteTx s s.cfg.cmdSetPageAddr = commandByteTx u3 u3.cfg.cmdSetPageAddr by simp [commandByteTx, *]]
  apply key
  intro u4 c4 d4 a4 b4 e4 f4
  rw [show commandByteTx s s.startPage = commandByteTx u4 u4.startPage by simp [commandByteTx, *]]
  apply key
  intro u5 c5 d5 a5 b5 e5 f5
  rw [show commandByteTx s s.endPage = commandByteTx u5 u5.endPage by simp [commandByteTx, *]]
  simp [cmdByte]

/-! ## The loop of CONSTRUCT -/

/-- All writes of the initialization sequence answered `ok` (rule R100): READY. -/
theorem sendInit_allOk {vs : List Byte} {s : State} (h : s.AllOk vs.length) :
    sendInit vs s =
      respond .ok 0
        { (s.spent vs.length).logged (okEntries (vs.map (commandByteTx s))) with
          mode := .ready, seqIdx := s.seqIdx + vs.length } := by
  induction vs generalizing s with
  | nil => simp [sendInit, okEntries]
  | cons v vs ih =>
    have h0 := h 0 (by simp)
    have h1 : ((s.spent 1).logged [⟨commandByteTx s v, .ok⟩]).AllOk vs.length := by
      intro k hk
      rw [answerAt_logged, answerAt_spent, Nat.add_comm]
      exact h (k + 1) (by simp; omega)
    simp only [sendInit, issue_eq, h0]
    refine (ih (s := { (s.spent 1).logged [⟨commandByteTx s v, .ok⟩] with seqIdx := s.seqIdx + 1 }) h1).trans ?_
    have e1 := spent_spent s 1 vs.length
    simp only [State.spent, State.mk.injEq] at e1
    simp [respond, State.logged, State.spent, okEntries, commandByteTx, Function.comp_def]
    constructor <;> omega

/-- The k-th write is the first that is not answered `ok` (rules R100, R106 b): FAILED at `err`, waiting otherwise. -/
theorem sendInit_ended {vs : List Byte} {s : State} {k : Nat} {a : Answer} (hk : k < vs.length) (h : s.AllOk k)
    (ha : s.answerAt k = a) (hne : a ≠ .ok) :
    sendInit vs s =
      if a = .err then
        raise .transportError
          { (s.spent (k + 1)).logged (endedEntries (vs.map (commandByteTx s)) k a) with
            mode := .failed, seqIdx := s.seqIdx + k }
      else
        { (s.spent (k + 1)).logged (endedEntries (vs.map (commandByteTx s)) k a) with seqIdx := s.seqIdx + k } := by
  induction k generalizing vs s with
  | zero =>
    cases vs with
    | nil => simp at hk
    | cons v vs =>
      simp only [sendInit, issue_eq, ha]
      cases a <;> simp_all [endedEntries, okEntries, State.logged]
  | succ k ih =>
    cases vs with
    | nil => simp at hk
    | cons v vs =>
      have h0 := h 0 (by omega)
      have h1 : ((s.spent 1).logged [⟨commandByteTx s v, .ok⟩]).AllOk k := by
        intro j hj
        rw [answerAt_logged, answerAt_spent, Nat.add_comm]
        exact h (j + 1) (by omega)
      have h2 : ((s.spent 1).logged [⟨commandByteTx s v, .ok⟩]).answerAt k = a := by
        rw [answerAt_logged, answerAt_spent, Nat.add_comm]
        exact ha
      simp only [sendInit, issue_eq, h0]
      refine (ih (s := { (s.spent 1).logged [⟨commandByteTx s v, .ok⟩] with seqIdx := s.seqIdx + 1 })
        (by simpa using hk) h1 h2).trans ?_
      cases a <;>
        simp [raise, respond, State.logged, State.spent, endedEntries, okEntries, commandByteTx] <;>
        exact ⟨by omega, by omega, rfl⟩

end Sys2Proof.Machine
end

