-- ==== Sys2Proof/Laws/Memory.lean ====
section
/-! SUPPORT. The laws of the byte memories: read after write, the canonical form kept by every operation, equal reads
make equal memories. -/

namespace Sys2Proof.Machine

theorem wf_cons {size a : Nat} {v : Byte} {m : Memory} :
    Memory.wf size ((a, v) :: m) = true ↔
      a < size ∧ (∀ c ∈ m, a < c.1) ∧ Memory.wf size m = true := by
  induction m generalizing a v with
  | nil => simp [Memory.wf]
  | cons c m ih =>
    obtain ⟨b, u⟩ := c
    simp only [Memory.wf, Bool.and_eq_true, decide_eq_true_eq]
    constructor
    · rintro ⟨hab, hw⟩
      obtain ⟨hb, hm, -⟩ := ih.mp hw
      refine ⟨by omega, ?_, hw⟩
      intro c hc
      rcases List.mem_cons.mp hc with rfl | hc
      · exact hab
      · have := hm c hc; omega
    · rintro ⟨-, hm, hw⟩
      exact ⟨hm (b, u) (by simp), hw⟩

theorem memRead_eq_none_of_lt {m : Memory} {i : Nat} (h : ∀ c ∈ m, i < c.1) : memRead m i = none := by
  induction m with
  | nil => rfl
  | cons c m ih =>
    obtain ⟨a, v⟩ := c
    have h1 := h (a, v) (by simp)
    simp only [memRead]
    rw [if_neg (by simp at h1; omega)]
    exact ih fun c hc => h c (by simp [hc])

theorem mem_of_memRead {m : Memory} {i : Nat} {v : Byte} (h : memRead m i = some v) : (i, v) ∈ m := by
  induction m with
  | nil => simp [memRead] at h
  | cons c m ih =>
    obtain ⟨a, u⟩ := c
    simp only [memRead] at h
    split at h
    · simp_all
    · simp [ih h]

theorem memRead_lt_size {size : Nat} {m : Memory} (hw : Memory.wf size m = true) {i : Nat} {v : Byte}
    (h : memRead m i = some v) : i < size := by
  induction m with
  | nil => simp [memRead] at h
  | cons c m ih =>
    obtain ⟨a, u⟩ := c
    obtain ⟨ha, -, hm⟩ := wf_cons.mp hw
    simp only [memRead] at h
    split at h
    · omega
    · exact ih hm h

@[simp] theorem memRead_memWrite_same (m : Memory) (i : Nat) (v : Byte) : memRead (memWrite m i v) i = some v := by
  induction m with
  | nil => simp [memWrite, memRead]
  | cons c m ih =>
    obtain ⟨a, u⟩ := c
    simp only [memWrite]
    split
    · simp [memRead]
    · split
      · simp [memRead]
      · rename_i h1 h2
        simp [memRead, h2, ih]

theorem memRead_memWrite_other (m : Memory) {i j : Nat} (v : Byte) (h : j ≠ i) :
    memRead (memWrite m i v) j = memRead m j := by
  induction m with
  | nil => simp [memWrite, memRead]; omega
  | cons c m ih =>
    obtain ⟨a, u⟩ := c
    simp only [memWrite]
    split
    · have : ¬ i = j := fun e => h e.symm
      simp [memRead, this]
    · split
      · rename_i h1 h2
        subst h2
        have : ¬ a = j := fun e => h e.symm
        simp [memRead, this]
      · simp [memRead, ih]

theorem memRead_memWrite (m : Memory) (i j : Nat) (v : Byte) :
    memRead (memWrite m i v) j = if j = i then some v else memRead m j := by
  split
  · subst_vars; simp
  · rename_i h; exact memRead_memWrite_other m v h

theorem mem_memWrite {m : Memory} {i : Nat} {v : Byte} {c : Host.Cell} (h : c ∈ memWrite m i v) :
    c = (i, v) ∨ c ∈ m := by
  induction m with
  | nil => simpa [memWrite] using h
  | cons d m ih =>
    obtain ⟨a, u⟩ := d
    simp only [memWrite] at h
    split at h
    · simpa using h
    · split at h
      · rcases List.mem_cons.mp h with h | h <;> simp [h]
      · rcases List.mem_cons.mp h with h | h
        · simp [h]
        · rcases ih h with h | h <;> simp [h]

/-- A write keeps the canonical form. -/
theorem wf_memWrite {size : Nat} {m : Memory} {i : Nat} {v : Byte} (hi : i < size)
    (hw : Memory.wf size m = true) : Memory.wf size (memWrite m i v) = true := by
  induction m with
  | nil => simp [memWrite, Memory.wf, hi]
  | cons c m ih =>
    obtain ⟨a, u⟩ := c
    obtain ⟨ha, hlt, hm⟩ := wf_cons.mp hw
    simp only [memWrite]
    split
    · rename_i h
      refine wf_cons.mpr ⟨hi, ?_, hw⟩
      intro c hc
      rcases List.mem_cons.mp hc with rfl | hc
      · exact h
      · have := hlt c hc; omega
    · split
      · rename_i h; subst h; exact wf_cons.mpr ⟨hi, hlt, hm⟩
      · refine wf_cons.mpr ⟨ha, ?_, ih hm⟩
        intro c hc
        rcases mem_memWrite hc with rfl | hc
        · simp; omega
        · exact hlt c hc

/-- Changing listed bytes in place changes exactly what is read there. -/
theorem memRead_map (g : Nat → Byte → Byte) (m : Memory) (i : Nat) :
    memRead (m.map fun c => (c.1, g c.1 c.2)) i = (memRead m i).map (g i) := by
  induction m with
  | nil => rfl
  | cons c m ih =>
    obtain ⟨a, u⟩ := c
    simp only [List.map_cons, memRead]
    split
    · subst_vars; rfl
    · exact ih

/-- Changing listed bytes in place keeps the canonical form. -/
theorem wf_map (g : Nat → Byte → Byte) {size : Nat} {m : Memory} (hw : Memory.wf size m = true) :
    Memory.wf size (m.map fun c => (c.1, g c.1 c.2)) = true := by
  induction m with
  | nil => rfl
  | cons c m ih =>
    obtain ⟨a, u⟩ := c
    obtain ⟨ha, hlt, hm⟩ := wf_cons.mp hw
    refine wf_cons.mpr ⟨ha, ?_, ih hm⟩
    intro c hc
    obtain ⟨d, hd, rfl⟩ := List.mem_map.mp hc
    exact hlt d hd

theorem memRead_memZerosFrom (n start i : Nat) :
    memRead (memZerosFrom start n) i = if start ≤ i ∧ i < start + n then some 0 else none := by
  induction n generalizing start with
  | zero => rw [if_neg (by omega)]; rfl
  | succ n ih =>
    simp only [memZerosFrom, memRead, ih]
    by_cases h : start = i
    · rw [if_pos h, if_pos (by omega)]
    · rw [if_neg h]
      by_cases h2 : start + 1 ≤ i ∧ i < start + 1 + n
      · rw [if_pos h2, if_pos (by omega)]
      · rw [if_neg h2, if_neg (by omega)]

/-- After a clear every byte of the memory reads 0x00, and no other index holds a byte. -/
theorem memRead_memZeros (n i : Nat) : memRead (memZeros n) i = if i < n then some 0 else none := by
  simp [memZeros, memRead_memZerosFrom]

theorem lt_of_mem_memZerosFrom {n start : Nat} {c : Host.Cell} (h : c ∈ memZerosFrom start n) :
    start ≤ c.1 ∧ c.1 < start + n := by
  induction n generalizing start with
  | zero => simp [memZerosFrom] at h
  | succ n ih =>
    rcases List.mem_cons.mp h with rfl | h
    · simp
    · have := ih h; omega

theorem wf_memZerosFrom {size : Nat} (n start : Nat) (h : start + n ≤ size) :
    Memory.wf size (memZerosFrom start n) = true := by
  induction n generalizing start with
  | zero => rfl
  | succ n ih =>
    refine wf_cons.mpr ⟨by omega, ?_, ih (start + 1) (by omega)⟩
    intro c hc
    have := lt_of_mem_memZerosFrom hc
    omega

/-- A clear leaves the canonical form. -/
theorem wf_memZeros (n : Nat) : Memory.wf n (memZeros n) = true := wf_memZerosFrom n 0 (by omega)

theorem memWritten_iff {size : Nat} {m : Memory} :
    memWritten size m = true ↔ ∀ i, i < size → ∃ v, memRead m i = some v := by
  simp [memWritten, Option.isSome_iff_exists]

theorem memWritten_memZeros (n : Nat) : memWritten n (memZeros n) = true := by
  rw [memWritten_iff]
  intro i hi
  exact ⟨0, by simp [memRead_memZeros, hi]⟩

theorem memWritten_memWrite {size : Nat} {m : Memory} (i : Nat) (v : Byte) (h : memWritten size m = true) :
    memWritten size (memWrite m i v) = true := by
  rw [memWritten_iff] at h ⊢
  intro j hj
  rw [memRead_memWrite]
  split
  · exact ⟨v, rfl⟩
  · exact h j hj

theorem memWritten_map (g : Nat → Byte → Byte) {size : Nat} {m : Memory} (h : memWritten size m = true) :
    memWritten size (m.map fun c => (c.1, g c.1 c.2)) = true := by
  rw [memWritten_iff] at h ⊢
  intro j hj
  obtain ⟨v, hv⟩ := h j hj
  exact ⟨g j v, by rw [memRead_map, hv]; rfl⟩

/-- Equal memories are equal data: two canonical memories that read the same are the same list. -/
theorem memory_ext {size : Nat} {m m' : Memory} (hw : Memory.wf size m = true) (hw' : Memory.wf size m' = true)
    (h : ∀ i, memRead m i = memRead m' i) : m = m' := by
  induction m generalizing m' with
  | nil =>
    cases m' with
    | nil => rfl
    | cons c m' => have := h c.1; simp [memRead] at this
  | cons c m ih =>
    obtain ⟨a, u⟩ := c
    obtain ⟨-, hlt, hm⟩ := wf_cons.mp hw
    cases m' with
    | nil => have := h a; simp [memRead] at this
    | cons c' m' =>
      obtain ⟨b, w⟩ := c'
      obtain ⟨-, hlt', hm'⟩ := wf_cons.mp hw'
      have hab : a = b := by
        have h1 := h a
        have h2 := h b
        simp only [memRead, if_true] at h1 h2
        by_contra hne
        rcases Nat.lt_or_gt_of_ne hne with hl | hl
        · rw [if_neg (by omega), memRead_eq_none_of_lt fun c hc => by have := hlt' c hc; omega] at h1
          simp at h1
        · rw [if_neg (by omega), memRead_eq_none_of_lt fun c hc => by have := hlt c hc; omega] at h2
          simp at h2
      subst hab
      have huw : u = w := by have := h a; simpa [memRead] using this
      subst huw
      rw [ih hm hm' fun i => ?_]
      by_cases hi : a = i
      · subst hi
        rw [memRead_eq_none_of_lt hlt, memRead_eq_none_of_lt hlt']
      · have := h i
        simpa [memRead, hi] using this

/-- What a range read says: the bytes in order. -/
theorem memReadRange_eq_some {m : Memory} {start n : Nat} {bs : List Byte} :
    memReadRange m start n = some bs ↔ bs.length = n ∧ ∀ j, j < n → memRead m (start + j) = bs[j]? := by
  induction n generalizing start bs with
  | zero =>
    constructor
    · intro h
      simp only [memReadRange, Option.some.injEq] at h
      subst h
      simp
    · rintro ⟨h, -⟩
      rw [List.length_eq_zero_iff.mp h]
      rfl
  | succ n ih =>
    simp only [memReadRange]
    constructor
    · intro h
      split at h
      · rename_i v vs hv hvs
        obtain ⟨hl, hr⟩ := ih.mp hvs
        simp only [Option.some.injEq] at h
        subst h
        refine ⟨by simp [hl], ?_⟩
        intro j hj
        cases j with
        | zero => simpa using hv
        | succ j => rw [show start + (j + 1) = start + 1 + j by omega, hr j (by omega)]; simp
      · simp at h
    · rintro ⟨hl, hr⟩
      cases bs with
      | nil => simp at hl
      | cons v vs =>
        have h0 := hr 0 (by omega)
        have ht : memReadRange m (start + 1) n = some vs := by
          refine ih.mpr ⟨by simpa using hl, ?_⟩
          intro j hj
          have := hr (j + 1) (by omega)
          rw [show start + 1 + j = start + (j + 1) by omega, this]
          simp
        simp at h0
        simp [h0, ht]

theorem memReadRange_length {m : Memory} {start n : Nat} {bs : List Byte} (h : memReadRange m start n = some bs) :
    bs.length = n := (memReadRange_eq_some.mp h).1

/-- Appending one byte behind a range that was read. -/
theorem memReadRange_memWrite_end {m : Memory} {n : Nat} {bs : List Byte} {v : Byte}
    (h : memReadRange m 0 n = some bs) : memReadRange (memWrite m n v) 0 (n + 1) = some (bs ++ [v]) := by
  obtain ⟨hl, hr⟩ := memReadRange_eq_some.mp h
  refine memReadRange_eq_some.mpr ⟨by simp [hl], ?_⟩
  intro j hj
  rw [memRead_memWrite]
  by_cases hjn : 0 + j = n
  · rw [if_pos hjn, List.getElem?_append_right (by omega)]
    have : j - bs.length = 0 := by omega
    simp [this]
  · rw [if_neg hjn, hr j (by omega), List.getElem?_append_left (by omega)]

/-- Reset leaves canonical memories: nothing is listed. -/
theorem reset_memories_wf :
    Memory.wf State.reset.cfg.fbBytes State.reset.fb = true ∧ Memory.wf State.reset.cfg.mts State.reset.scratch = true :=
  ⟨rfl, rfl⟩

end Sys2Proof.Machine
end

