-- ==== Sys2Proof/Laws/Stream.lean ====
section
/-! SUPPORT. What the streaming phase does (rules R130 to R136): whatever the responder answers, `Stream` sends the
chunks of the byte stream in order and stops at the first that is not answered `ok`; and what it leaves in `SCRATCH`,
`SIDX`, `PAGE` and `COL`. -/

namespace Sys2Proof.Machine

/-! ## The chunks of a byte stream -/

/-- Appending bytes behind `p` pending ones: the chunks that fill up, and what is pending after (rule R131). -/
def feed (mts : Nat) : List Byte → List Byte → List (List Byte) × List Byte
  | p, [] => ([], p)
  | p, v :: bs =>
    if p.length + 1 = mts then ((p ++ [v]) :: (feed mts [] bs).1, (feed mts [] bs).2) else feed mts (p ++ [v]) bs

theorem feed_append (mts : Nat) (p bs cs : List Byte) :
    feed mts p (bs ++ cs) =
      ((feed mts p bs).1 ++ (feed mts (feed mts p bs).2 cs).1, (feed mts (feed mts p bs).2 cs).2) := by
  induction bs generalizing p with
  | nil => simp [feed]
  | cons v bs ih =>
    simp only [List.cons_append, feed]
    split
    · rw [ih]; simp
    · rw [ih]

theorem feed_pending_lt {mts : Nat} (hm : 1 ≤ mts) (p bs : List Byte) (hp : p.length < mts) :
    (feed mts p bs).2.length < mts := by
  induction bs generalizing p with
  | nil => simpa [feed]
  | cons v bs ih =>
    simp only [feed]
    split
    · exact ih [] (by simp; omega)
    · exact ih _ (by simp; omega)

theorem feed_short {mts : Nat} (p bs : List Byte) (h : p.length + bs.length < mts) : feed mts p bs = ([], p ++ bs) := by
  induction bs generalizing p with
  | nil => simp [feed]
  | cons v bs ih =>
    simp only [List.length_cons] at h
    simp only [feed]
    rw [if_neg (by omega), ih _ (by simp; omega)]
    simp

theorem feed_full {mts : Nat} (p bs : List Byte) (hp : p.length < mts)
    (h : mts ≤ p.length + bs.length) :
    feed mts p bs =
      ((p ++ bs.take (mts - p.length)) :: (feed mts [] (bs.drop (mts - p.length))).1,
        (feed mts [] (bs.drop (mts - p.length))).2) := by
  induction bs generalizing p with
  | nil => simp at h; omega
  | cons v bs ih =>
    simp only [List.length_cons] at h
    simp only [feed]
    split
    · rename_i h1
      rw [show mts - p.length = 1 by omega]
      simp
    · rename_i h1
      rw [ih _ (by simp; omega) (by simp; omega)]
      obtain ⟨k, hk⟩ : ∃ k, mts - p.length = k + 1 := ⟨mts - p.length - 1, by omega⟩
      rw [show mts - (p ++ [v]).length = k by simp; omega, hk]
      simp

theorem chunkCount_zero {mts : Nat} (hm : 1 ≤ mts) : chunkCount mts 0 = 0 := by
  simp only [chunkCount]
  exact Nat.div_eq_of_lt (by omega)

theorem chunkCount_short {mts n : Nat} (hn : 1 ≤ n) (h : n ≤ mts) : chunkCount mts n = 1 := by
  simp only [chunkCount]
  rw [Nat.div_eq_iff (by omega)]
  omega

theorem chunkCount_long {mts n : Nat} (hm : 1 ≤ mts) (h : mts ≤ n) :
    chunkCount mts n = chunkCount mts (n - mts) + 1 := by
  simp only [chunkCount]
  rw [show n + mts - 1 = (n - mts + mts - 1) + mts by omega, Nat.add_div_right _ (by omega)]

theorem chunks_nil {mts : Nat} (hm : 1 ≤ mts) : chunks mts [] = [] := by
  simp [chunks, chunkCount_zero hm]

theorem chunks_short {mts : Nat} {bs : List Byte} (hn : bs ≠ []) (h : bs.length ≤ mts) : chunks mts bs = [bs] := by
  have h1 : 1 ≤ bs.length := List.length_pos_iff.mpr hn
  simp [chunks, chunkCount_short h1 h, chunk, List.range_succ, List.take_of_length_le h]

theorem chunks_long {mts : Nat} {bs : List Byte} (hm : 1 ≤ mts) (h : mts ≤ bs.length) :
    chunks mts bs = bs.take mts :: chunks mts (bs.drop mts) := by
  simp only [chunks, List.length_drop, chunkCount_long hm h, List.range_succ_eq_map, List.map_cons, List.map_map]
  congr 1
  · simp [chunk]
  · apply List.map_congr_left
    intro j _
    simp [chunk, List.drop_drop, Nat.add_mul, Nat.add_comm]

/-- Filling chunks byte by byte, with a last flush of what is pending, gives the chunks of rule R134. -/
theorem feed_chunks {mts : Nat} (hm : 1 ≤ mts) (bs : List Byte) :
    (feed mts [] bs).1 ++ (if (feed mts [] bs).2 = [] then [] else [(feed mts [] bs).2]) = chunks mts bs := by
  induction h : bs.length using Nat.strong_induction_on generalizing bs with
  | _ n ih =>
    by_cases hs : bs.length < mts
    · rw [feed_short [] bs (by simpa using hs)]
      by_cases hb : bs = []
      · simp [hb, chunks_nil hm]
      · simp [hb, chunks_short hb (Nat.le_of_lt hs)]
    · rw [feed_full [] bs (by simp; omega) (by simpa using Nat.le_of_not_lt hs),
        chunks_long hm (Nat.le_of_not_lt hs)]
      simp only [List.nil_append, List.length_nil, Nat.sub_zero, List.cons_append]
      rw [ih (bs.drop mts).length (by simp; omega) _ rfl]

theorem chunks_bounded {mts : Nat} (hm : 1 ≤ mts) {bs p : List Byte} (hp : p ∈ chunks mts bs) :
    1 ≤ p.length ∧ p.length ≤ mts := by
  simp only [chunks, List.mem_map, List.mem_range] at hp
  obtain ⟨j, hj, rfl⟩ := hp
  simp only [chunk, List.length_take, List.length_drop]
  have h1 : j + 1 ≤ chunkCount mts bs.length := hj
  simp only [chunkCount] at h1
  rw [Nat.le_div_iff_mul_le (by omega), Nat.add_mul] at h1
  omega

theorem chunks_length (mts : Nat) (bs : List Byte) : (chunks mts bs).length = chunkCount mts bs.length := by
  simp [chunks]

/-- The chunks of a byte stream, in order, are the byte stream (rule R134). -/
theorem chunks_flatten {mts : Nat} (hm : 1 ≤ mts) (bs : List Byte) : (chunks mts bs).flatten = bs := by
  induction h : bs.length using Nat.strong_induction_on generalizing bs with
  | _ n ih =>
    by_cases hs : bs.length < mts
    · by_cases hb : bs = []
      · simp [hb, chunks_nil hm]
      · simp [chunks_short hb (Nat.le_of_lt hs)]
    · rw [chunks_long hm (Nat.le_of_not_lt hs), List.flatten_cons,
        ih (bs.drop mts).length (by simp; omega) _ rfl, List.take_append_drop]

/-! ## Flows up to what a streaming phase works on -/

/-- A flow with `SCRATCH`, `SIDX`, `PAGE` and `COL` forgotten. -/
def Flow.core : Flow → Flow
  | .run s => .run (s.streamed [] 0 0 0)
  | .raised e s => .raised e (s.streamed [] 0 0 0)
  | .hung s => .hung (s.streamed [] 0 0 0)
  | .fault f => .fault f

/-- `R` holds where the flow goes on, `S` where it has ended; it does not fault. -/
def Flow.Post (f : Flow) (R S : State → Prop) : Prop :=
  match f with
  | .run s => R s
  | .raised _ s => S s
  | .hung s => S s
  | .fault _ => False

/-- Up to what a streaming phase works on, `f` sends `txs` from `s`; `R` and `S` say the rest. -/
structure Sends (f : Flow) (txs : List Transaction) (s : State) (R S : State → Prop) : Prop where
  core : f.core = deliver txs (s.streamed [] 0 0 0)
  post : f.Post R S

theorem Sends.andThen {f : Flow} {txs us : List Transaction} {s : State} {R R' S : State → Prop}
    {k : State → Flow} (hf : Sends f txs s R S) (hk : ∀ s', R s' → Sends (k s') us s' R' S) :
    Sends (f.andThen k) (txs ++ us) s R' S := by
  obtain ⟨hc, hp⟩ := hf
  cases f with
  | run s' =>
    have h := hk s' hp
    refine ⟨?_, h.post⟩
    rw [deliver_append, ← hc]
    exact h.core
  | raised e s' => exact ⟨by rw [deliver_append, ← hc]; rfl, hp⟩
  | hung s' => exact ⟨by rw [deliver_append, ← hc]; rfl, hp⟩
  | fault x => exact hp.elim

theorem Sends.refl {s : State} {R S : State → Prop} (h : R s) : Sends (.run s) [] s R S := ⟨rfl, h⟩

theorem Sends.weaken {f : Flow} {txs : List Transaction} {s : State} {R R' S S' : State → Prop}
    (hf : Sends f txs s R S) (hR : ∀ s', R s' → R' s') (hS : ∀ s', S s' → S' s') : Sends f txs s R' S' := by
  obtain ⟨hc, hp⟩ := hf
  refine ⟨hc, ?_⟩
  cases f with
  | run s' => exact hR s' hp
  | raised e s' => exact hS s' hp
  | hung s' => exact hS s' hp
  | fault x => exact hp.elim

/-- One transaction, sent from a state in the middle of a streaming phase. -/
theorem sends_transact (t : Transaction) (s : State) :
    Sends (transact t s) [t] s (fun s' => s' = (s.spent 1).logged [⟨t, .ok⟩])
      (fun s' => ∃ a, s' = (s.spent 1).logged [⟨t, a⟩]) := by
  constructor
  · simp only [deliver, transact_eq]
    have : (s.streamed [] 0 0 0).answerAt 0 = s.answerAt 0 := rfl
    rw [this]
    cases s.answerAt 0 <;> rfl
  · rw [transact_eq]
    cases h : s.answerAt 0
    · exact rfl
    · exact ⟨_, rfl⟩
    · exact ⟨_, rfl⟩

/-! ## The state in the middle of a streaming phase -/

/-- The buffer write of a payload (rule R69). -/
def bufTx (c : Config) (dev : BusAddress) (p : List Byte) : Transaction := .buf dev c.regData (BitVec.ofNat 8 p.length) p

/-- `s` is a state of the streaming phase that began in `s0`: `p` is pending in `SCRATCH`, `PAGE` and `COL` are
`pg` and `cl`, and what the phase does not work on is as it was. -/
structure Mid (s0 : State) (p : List Byte) (pg cl : Nat) (s : State) : Prop where
  cfg : s.cfg = s0.cfg
  dev : s.devAddr = s0.devAddr
  fb : s.fb = s0.fb
  startCol : s.startCol = s0.startCol
  endCol : s.endCol = s0.endCol
  pending : memReadRange s.scratch 0 s.sidx = some p
  wf : Memory.wf s0.cfg.mts s0.scratch = true → Memory.wf s0.cfg.mts s.scratch = true
  page : s.page = pg
  col : s.col = cl

theorem Mid.sidx {s0 s : State} {p : List Byte} {pg cl : Nat} (h : Mid s0 p pg cl s) : s.sidx = p.length :=
  (memReadRange_length h.pending).symm

/-- `s` is where the streaming phase that began in `s0` ended at a flush that was not answered `ok`: the failed chunk
is still in `SCRATCH`, `SIDX` is its length, and it is the last transaction of the trace (rules R132, R154). -/
structure Stopped (s0 s : State) : Prop where
  chunk : ∃ p a, 1 ≤ p.length ∧ p.length ≤ s0.cfg.mts ∧ memReadRange s.scratch 0 s.sidx = some p ∧
    s.trace.getLast? = some ⟨bufTx s0.cfg s0.devAddr p, a⟩
  wf : Memory.wf s0.cfg.mts s0.scratch = true → Memory.wf s0.cfg.mts s.scratch = true
  page : s.page ≤ s0.endPage.toNat + 1
  col : s.col ≤ s0.endCol.toNat + 1

/-- `Flush` (rule R132): one buffer write of what is pending. -/
theorem sends_flush {s0 s : State} {p : List Byte} {pg cl : Nat} (h : Mid s0 p pg cl s) (h1 : 1 ≤ p.length)
    (hm : p.length ≤ s0.cfg.mts) (hpg : pg ≤ s0.endPage.toNat + 1) (hcl : cl ≤ s0.endCol.toNat + 1) :
    Sends (flush s) [bufTx s0.cfg s0.devAddr p] s (fun s' => Mid s0 [] pg cl s' ∧ s'.sidx = 0) (Stopped s0) := by
  have ht : dataBufTx s p = bufTx s0.cfg s0.devAddr p := by simp [dataBufTx, bufTx, h.cfg, h.dev]
  simp only [flush, h.pending, ht]
  have hs : Sends (transact (bufTx s0.cfg s0.devAddr p) s) [bufTx s0.cfg s0.devAddr p] s
      (fun s' => s' = (s.spent 1).logged [⟨bufTx s0.cfg s0.devAddr p, .ok⟩]) (Stopped s0) := by
    refine (sends_transact _ s).weaken (fun _ h => h) ?_
    rintro s' ⟨a, rfl⟩
    refine ⟨⟨p, a, h1, hm, h.pending, by simp⟩, h.wf, ?_, ?_⟩
    · simpa [h.page] using hpg
    · simpa [h.col] using hcl
  refine Sends.andThen (us := []) hs ?_
  rintro s' rfl
  refine ⟨rfl, ⟨⟨h.cfg, h.dev, h.fb, h.startCol, h.endCol, ?_, h.wf, h.page, h.col⟩, rfl⟩⟩
  rfl

/-- `Append` (rule R131): the byte is pending, or its chunk is full and is sent. -/
theorem sends_append {s0 s : State} {p : List Byte} {pg cl : Nat} (v : Byte) (h : Mid s0 p pg cl s)
    (hm : p.length < s0.cfg.mts) (hpg : pg ≤ s0.endPage.toNat + 1) (hcl : cl ≤ s0.endCol.toNat + 1) :
    Sends (append v s) ((feed s0.cfg.mts p [v]).1.map (bufTx s0.cfg s0.devAddr)) s
      (Mid s0 (feed s0.cfg.mts p [v]).2 pg cl) (Stopped s0) := by
  have hi := h.sidx
  have h' : Mid s0 (p ++ [v]) pg cl { s with scratch := memWrite s.scratch s.sidx v, sidx := s.sidx + 1 } := by
    refine ⟨h.cfg, h.dev, h.fb, h.startCol, h.endCol, memReadRange_memWrite_end h.pending, ?_, h.page, h.col⟩
    intro hw
    exact wf_memWrite (by rw [hi]; exact hm) (h.wf hw)
  by_cases hfull : p.length + 1 = s0.cfg.mts
  · have ha : append v s = flush { s with scratch := memWrite s.scratch s.sidx v, sidx := s.sidx + 1 } :=
      if_pos (by simp only [h.cfg, hi, hfull])
    have hf := sends_flush h' (by simp) (by simp; omega) hpg hcl
    rw [ha]
    simp only [feed, if_pos hfull]
    exact ⟨hf.core, (hf.weaken (fun _ h => h.1) fun _ h => h).post⟩
  · have ha : append v s = .run { s with scratch := memWrite s.scratch s.sidx v, sidx := s.sidx + 1 } :=
      if_neg (by simp only [h.cfg, hi]; exact hfull)
    rw [ha]
    simp only [feed, if_neg hfull]
    exact ⟨rfl, h'⟩

/-- The inner loop of rule R130: the bytes of one page's columns are appended in order. -/
theorem sends_streamCols {s0 : State} (h1 : 1 ≤ s0.cfg.mts) (bs : List Byte) {p : List Byte} {pg cl : Nat} {s : State}
    (h : Mid s0 p pg cl s) (hm : p.length < s0.cfg.mts) (hpg : pg ≤ s0.endPage.toNat + 1)
    (hcl : cl + bs.length ≤ s0.endCol.toNat + 1)
    (hr : ∀ j, j < bs.length → memRead s0.fb (byteIndex s0.cfg pg (cl + j)) = bs[j]?) :
    Sends (streamCols bs.length s) ((feed s0.cfg.mts p bs).1.map (bufTx s0.cfg s0.devAddr)) s
      (Mid s0 (feed s0.cfg.mts p bs).2 pg (cl + bs.length)) (Stopped s0) := by
  induction bs generalizing p cl s with
  | nil => exact Sends.refl h
  | cons v bs ih =>
    have h0 := hr 0 (by simp)
    simp only [List.length_cons] at hcl
    simp only [Nat.add_zero, List.getElem?_cons_zero] at h0
    simp only [List.length_cons, streamCols, h.fb, h.cfg, h.page, h.col, h0]
    have hfeed := feed_append s0.cfg.mts p [v] bs
    rw [List.singleton_append] at hfeed
    rw [hfeed, List.map_append]
    refine Sends.andThen (sends_append v h hm hpg (by omega)) ?_
    intro s' hs'
    have hmid : Mid s0 (feed s0.cfg.mts p [v]).2 pg (cl + 1) { s' with col := s'.col + 1 } :=
      ⟨hs'.cfg, hs'.dev, hs'.fb, hs'.startCol, hs'.endCol, hs'.pending, hs'.wf, hs'.page, by simp [hs'.col]⟩
    have hlt := feed_pending_lt h1 p [v] hm
    have hrec := ih hmid hlt (by omega) (fun j hj => by
      have := hr (j + 1) (by simp; omega)
      rw [show cl + 1 + j = cl + (j + 1) by omega, this]
      simp)
    refine ⟨hrec.core, ?_⟩
    rw [show cl + (bs.length + 1) = cl + 1 + bs.length by omega]
    exact hrec.post

/-- The bytes of page `pg` in the window of `s0`. -/
def pageBytes (s0 : State) (pg : Nat) : List Byte :=
  (List.range (s0.endCol.toNat + 1 - s0.startCol.toNat)).map fun j =>
    (memRead s0.fb (byteIndex s0.cfg pg (s0.startCol.toNat + j))).getD 0

/-- The outer loop of rule R130: page after page. -/
theorem sends_streamPages {s0 : State} (h1 : 1 ≤ s0.cfg.mts) (hc : s0.startCol.toNat ≤ s0.endCol.toNat) (n : Nat)
    {p : List Byte} {pg cl : Nat} {s : State} (h : Mid s0 p pg cl s) (hm : p.length < s0.cfg.mts)
    (hpg : pg + n ≤ s0.endPage.toNat + 1)
    (hr : ∀ i j, i < n → j < s0.endCol.toNat + 1 - s0.startCol.toNat →
      (memRead s0.fb (byteIndex s0.cfg (pg + i) (s0.startCol.toNat + j))).isSome = true) :
    Sends (streamPages n s)
      ((feed s0.cfg.mts p ((List.range n).flatMap fun i => pageBytes s0 (pg + i))).1.map (bufTx s0.cfg s0.devAddr)) s
      (Mid s0 (feed s0.cfg.mts p ((List.range n).flatMap fun i => pageBytes s0 (pg + i))).2 (pg + n)
        (if n = 0 then cl else s0.endCol.toNat + 1)) (Stopped s0) := by
  induction n generalizing p pg cl s with
  | zero => exact Sends.refl (by simpa [feed] using h)
  | succ n ih =>
    have hsplit : (List.range (n + 1)).flatMap (fun i => pageBytes s0 (pg + i)) =
        pageBytes s0 pg ++ (List.range n).flatMap fun i => pageBytes s0 (pg + 1 + i) := by
      rw [List.range_succ_eq_map, List.flatMap_cons, List.flatMap_map]
      simp only [Nat.add_zero]
      congr 2
      funext i
      rw [show pg + 1 + i = pg + i.succ by omega]
    rw [hsplit, feed_append, List.map_append]
    have hcnt : s.endCol.toNat + 1 - s.startCol.toNat = s0.endCol.toNat + 1 - s0.startCol.toNat := by
      rw [h.endCol, h.startCol]
    have hcol : s.startCol.toNat = s0.startCol.toNat := by rw [h.startCol]
    rw [streamPages, hcnt, hcol]
    have hmid : Mid s0 p pg s0.startCol.toNat { s with col := s0.startCol.toNat } :=
      ⟨h.cfg, h.dev, h.fb, h.startCol, h.endCol, h.pending, h.wf, h.page, rfl⟩
    have hlen : (pageBytes s0 pg).length = s0.endCol.toNat + 1 - s0.startCol.toNat := by simp [pageBytes]
    have hcols := sends_streamCols h1 (pageBytes s0 pg) hmid hm (by omega) (by omega) (fun j hj => by
      rw [hlen] at hj
      have := hr 0 j (by omega) hj
      rw [Nat.add_zero, Option.isSome_iff_exists] at this
      obtain ⟨v, hv⟩ := this
      simp [pageBytes, hj, hv])
    rw [hlen] at hcols
    refine Sends.andThen (s := s) ⟨hcols.core, hcols.post⟩ ?_
    intro s' hs'
    have hmid' : Mid s0 (feed s0.cfg.mts p (pageBytes s0 pg)).2 (pg + 1)
        (s0.startCol.toNat + (s0.endCol.toNat + 1 - s0.startCol.toNat)) { s' with page := s'.page + 1 } :=
      ⟨hs'.cfg, hs'.dev, hs'.fb, hs'.startCol, hs'.endCol, hs'.pending, hs'.wf, by simp [hs'.page], hs'.col⟩
    have hrec := ih hmid' (feed_pending_lt h1 _ _ hm) (by omega) (fun i j hi hj => by
      have := hr (i + 1) j (by omega) hj
      rwa [show pg + (i + 1) = pg + 1 + i by omega] at this)
    refine ⟨hrec.core, (hrec.weaken (fun s'' hs'' => ?_) fun _ h => h).post⟩
    obtain ⟨a1, a2, a3, a4, a5, a6, a7, a8, a9⟩ := hs''
    refine ⟨a1, a2, a3, a4, a5, a6, a7, by omega, ?_⟩
    rw [a9]
    split
    · simp; omega
    · simp

/-- The bytes of the window of `s0`, page-major and column-minor. -/
def windowBytes (s0 : State) : List Byte :=
  (List.range (s0.endPage.toNat + 1 - s0.startPage.toNat)).flatMap fun i => pageBytes s0 (s0.startPage.toNat + i)

/-- `Stream` (rules R130, R133, R134): whatever is answered, the chunks of the window's bytes are sent in order. -/
theorem sends_stream {s0 : State} (h1 : 1 ≤ s0.cfg.mts) (hc : s0.startCol.toNat ≤ s0.endCol.toNat)
    (hp : s0.startPage.toNat ≤ s0.endPage.toNat)
    (hr : ∀ pg cl, s0.startPage.toNat ≤ pg → pg ≤ s0.endPage.toNat → s0.startCol.toNat ≤ cl →
      cl ≤ s0.endCol.toNat → (memRead s0.fb (byteIndex s0.cfg pg cl)).isSome = true) :
    Sends (stream s0) ((chunks s0.cfg.mts (windowBytes s0)).map (bufTx s0.cfg s0.devAddr)) s0
      (fun s' => Mid s0 [] (s0.endPage.toNat + 1) (s0.endCol.toNat + 1) s' ∧ s'.sidx = 0) (Stopped s0) := by
  rw [← feed_chunks h1, List.map_append]
  have hmid : Mid s0 [] s0.startPage.toNat s0.col { s0 with sidx := 0, page := s0.startPage.toNat } :=
    ⟨rfl, rfl, rfl, rfl, rfl, rfl, fun h => h, rfl, rfl⟩
  have hpages := sends_streamPages h1 hc (s0.endPage.toNat + 1 - s0.startPage.toNat) hmid (by simp; omega)
    (by omega) (fun i j hi hj => hr _ _ (by omega) (by omega) (by omega) (by omega))
  refine Sends.andThen (s := s0) ⟨hpages.core, hpages.post⟩ ?_
  intro s' hs'
  rw [if_neg (by omega), show s0.startPage.toNat + (s0.endPage.toNat + 1 - s0.startPage.toNat) = s0.endPage.toNat + 1
    by omega] at hs'
  have hs : Mid s0 (feed s0.cfg.mts [] (windowBytes s0)).2 (s0.endPage.toNat + 1) (s0.endCol.toNat + 1) s' := hs'
  have hlt := feed_pending_lt h1 [] (windowBytes s0) (by simp; omega)
  have hi := hs.sidx
  simp only [flushRest]
  split
  · rename_i hpos
    rw [if_neg]
    · exact sends_flush hs (by rw [← hi]; exact hpos) (Nat.le_of_lt hlt) (by omega) (by omega)
    · intro hnil
      have : s'.sidx = 0 := by rw [hi]; exact congrArg List.length hnil
      omega
  · rename_i hpos
    have hnil : (feed s0.cfg.mts [] (windowBytes s0)).2 = [] := by
      apply List.length_eq_zero_iff.mp
      have h2 : s'.sidx = (feed s0.cfg.mts [] (windowBytes s0)).2.length := hi
      omega
    rw [if_pos hnil]
    refine Sends.refl ⟨?_, by omega⟩
    rwa [hnil] at hs

end Sys2Proof.Machine
end

