-- ==== Sys2Proof/Laws/Device.lean ====
section
/-! SUPPORT. What the device of rule R47 does with the six command bytes of a window and with buffer writes that were
answered `ok`. -/

namespace Sys2Proof.Machine

theorem deviceStoreAll_append (c : Config) (a b : List Byte) (d : Device) :
    deviceStoreAll c (a ++ b) d = deviceStoreAll c b (deviceStoreAll c a d) := by
  induction a generalizing d with
  | nil => rfl
  | cons v a ih => exact ih _

theorem deviceReceiveAll_append (c : Config) (taken : Nat → Nat) (a b : List TraceEntry) (k : Nat) (d : Device) :
    deviceReceiveAll c taken k (a ++ b) d =
      deviceReceiveAll c taken (k + a.length) b (deviceReceiveAll c taken k a d) := by
  induction a generalizing d k with
  | nil => rfl
  | cons v a ih =>
    simp only [List.cons_append, deviceReceiveAll, ih, List.length_cons]
    congr 1
    omega

/-- Buffer writes answered `ok` arrive as their bytes in order (rule R47). -/
theorem deviceReceiveAll_chunks (c : Config) (dev : BusAddress) (taken : Nat → Nat) (ps : List (List Byte)) (k : Nat)
    (d : Device) :
    deviceReceiveAll c taken k (okEntries (ps.map (bufTx c dev))) d = deviceStoreAll c ps.flatten d := by
  induction ps generalizing k d with
  | nil => rfl
  | cons p ps ih =>
    have := ih (k + 1) (deviceReceive c (taken k) ⟨bufTx c dev p, .ok⟩ d)
    simp only [okEntries] at this
    simp only [List.map_cons, okEntries, deviceReceiveAll, List.flatten_cons, deviceStoreAll_append, this]
    simp [deviceReceive, bufTx]

theorem deviceCommand_keeps (c : Config) (v : Byte) (d : Device) :
    (deviceCommand c v d).ram = d.ram ∧ (deviceCommand c v d).recent = v :: d.recent := by
  unfold deviceCommand
  split <;> simp

/-- After the six command bytes of rule R104 the window is set and the cursor is at its start (rule R47). -/
theorem deviceReceiveAll_window (s : State) (x y w h : Int) (taken : Nat → Nat) (k : Nat) (d : Device) :
    ∃ recent,
      deviceReceiveAll s.cfg taken k (okEntries (windowTxs s x y w h)) d =
        { ram := d.ram
          startCol := (BitVec.ofNat 8 (startColOf x)).toNat
          endCol := (BitVec.ofNat 8 (endColOf x w)).toNat
          startPage := (BitVec.ofNat 8 (startPageOf y)).toNat
          endPage := (BitVec.ofNat 8 (endPageOf y h)).toNat
          page := (BitVec.ofNat 8 (startPageOf y)).toNat
          col := (BitVec.ofNat 8 (startColOf x)).toNat
          recent := recent } := by
  simp only [windowTxs, okEntries, List.map_cons, List.map_nil, deviceReceiveAll, deviceReceive, true_or, and_self,
    if_true]
  generalize h5 : deviceCommand s.cfg (BitVec.ofNat 8 (startPageOf y)) _ = d5
  have hr : d5.ram = d.ram ∧ d5.recent = BitVec.ofNat 8 (startPageOf y) :: s.cfg.cmdSetPageAddr ::
      BitVec.ofNat 8 (endColOf x w) :: BitVec.ofNat 8 (startColOf x) :: s.cfg.cmdSetColumnAddr :: d.recent := by
    rw [← h5]
    simp [deviceCommand_keeps]
  refine ⟨BitVec.ofNat 8 (endPageOf y h) :: d5.recent, ?_⟩
  unfold deviceCommand
  simp [hr.2, windowOf, hr.1]

/-- One page of a window: `n` bytes from the cursor to the end column; the cursor goes to the next page. -/
theorem deviceStoreAll_row (c : Config) (f : Nat → Byte) (n : Nat) (d : Device) (hn : d.col + n = d.endCol + 1)
    (h0 : 1 ≤ n) :
    ∃ r, deviceStoreAll c ((List.range n).map fun j => f (d.col + j)) d =
        { d with ram := r, col := d.startCol, page := d.page + 1 } ∧
      ∀ a, (∀ j, j < n → a = byteIndex c d.page (d.col + j) → memRead r a = some (f (d.col + j))) ∧
        ((∀ j, j < n → a ≠ byteIndex c d.page (d.col + j)) → memRead r a = memRead d.ram a) := by
  induction n generalizing d with
  | zero => omega
  | succ n ih =>
    rw [List.range_succ_eq_map]
    simp only [List.map_cons, List.map_map, deviceStoreAll]
    by_cases hlt : d.col < d.endCol
    · have e : deviceStore c (f (d.col + 0)) d =
          { d with ram := memWrite d.ram (byteIndex c d.page d.col) (f d.col), col := d.col + 1 } := by
        simp [deviceStore, hlt]
      obtain ⟨r, h1, h2⟩ := ih (deviceStore c (f (d.col + 0)) d) (by rw [e]; simp; omega) (by omega)
      have ef : ((fun j => f (d.col + j)) ∘ Nat.succ) = fun j => f ((deviceStore c (f (d.col + 0)) d).col + j) := by
        funext j
        rw [e]
        simp only [Function.comp_apply]
        congr 1
        omega
      refine ⟨r, by rw [ef, h1, e], ?_⟩
      intro a
      obtain ⟨g1, g2⟩ := h2 a
      rw [e] at g1 g2
      simp only [byteIndex] at g1 g2 ⊢
      constructor
      · intro j hj ha
        cases j with
        | zero =>
          rw [g2 (by intro i _; omega), memRead_memWrite, if_pos (by omega)]
          rfl
        | succ j =>
          rw [g1 j (by omega) (by omega)]
          congr 2
          omega
      · intro hne
        rw [g2 (by intro j hj; have := hne (j + 1) (by omega); omega), memRead_memWrite,
          if_neg (by have := hne 0 (by omega); omega)]
    · have hn0 : n = 0 := by omega
      subst hn0
      refine ⟨memWrite d.ram (byteIndex c d.page d.col) (f d.col), by simp [deviceStoreAll, deviceStore, hlt], ?_⟩
      intro a
      rw [memRead_memWrite]
      constructor
      · intro j hj ha
        obtain rfl : j = 0 := by omega
        rw [if_pos (by simpa using ha)]
        rfl
      · intro hne
        rw [if_neg (by simpa using hne 0 (by omega))]

/-- The bytes of a window, page by page, land on the bytes of the window and nowhere else (rule R47). -/
theorem deviceStoreAll_window (c : Config) (f : Nat → Byte) (sc w np p : Nat) (d : Device) (hw : 1 ≤ w)
    (h1 : d.col = sc) (h2 : d.startCol = sc) (h3 : d.endCol + 1 = sc + w) (h4 : d.page = p) :
    ∀ a,
      (∀ i j, i < np → j < w → a = byteIndex c (p + i) (sc + j) →
        memRead (deviceStoreAll c (((List.range np).map fun i =>
          (List.range w).map fun j => f (byteIndex c (p + i) (sc + j))).flatten) d).ram a = some (f a)) ∧
      ((∀ i j, i < np → j < w → a ≠ byteIndex c (p + i) (sc + j)) →
        memRead (deviceStoreAll c (((List.range np).map fun i =>
          (List.range w).map fun j => f (byteIndex c (p + i) (sc + j))).flatten) d).ram a = memRead d.ram a) := by
  induction np generalizing p d with
  | zero => exact fun a => ⟨fun i j hi => by omega, fun _ => rfl⟩
  | succ np ih =>
    intro a
    rw [List.range_succ_eq_map]
    simp only [List.map_cons, List.map_map, List.flatten_cons, deviceStoreAll_append]
    obtain ⟨r, e1, e2⟩ := deviceStoreAll_row c (fun q => f (byteIndex c p q)) w d (by omega) hw
    have e1' : deviceStoreAll c ((List.range w).map fun j => f (byteIndex c (p + 0) (sc + j))) d =
        { d with ram := r, col := d.startCol, page := d.page + 1 } := by
      rw [← e1, h1, Nat.add_zero]
    have ef : ((fun i => (List.range w).map fun j => f (byteIndex c (p + i) (sc + j))) ∘ Nat.succ) =
        fun i => (List.range w).map fun j => f (byteIndex c (p + 1 + i) (sc + j)) := by
      funext i
      simp only [Function.comp_apply]
      rw [show p + i.succ = p + 1 + i by omega]
    rw [e1', ef]
    obtain ⟨g1, g2⟩ := ih (p + 1) { d with ram := r, col := d.startCol, page := d.page + 1 } h2 h2 h3
      (by simp [h4]) a
    obtain ⟨r1, r2⟩ := e2 a
    rw [h4, h1] at r1 r2
    by_cases hx : ∃ i j, i < np ∧ j < w ∧ a = byteIndex c (p + 1 + i) (sc + j)
    · obtain ⟨i, j, q1, q2, q3⟩ := hx
      refine ⟨fun _ _ _ _ _ => g1 i j q1 q2 q3, fun hne => ?_⟩
      exact absurd (by rw [q3]; congr 1; omega) (hne (i + 1) j (by omega) q2)
    · have hx' : ∀ i j, i < np → j < w → a ≠ byteIndex c (p + 1 + i) (sc + j) :=
        fun i j q1 q2 q3 => hx ⟨i, j, q1, q2, q3⟩
      rw [g2 hx']
      constructor
      · intro i j q1 q2 q3
        cases i with
        | zero =>
          rw [r1 j q2 q3, q3]
          rfl
        | succ i => exact absurd (by rw [q3]; congr 1; omega) (hx' i j (by omega) q2)
      · intro hne
        exact r2 fun j q2 => hne 0 j (by omega) q2

end Sys2Proof.Machine
end

