-- ==== Sys2Proof/Laws/Encoding.lean ====
section
/-! SUPPORT. The bits of an encoded word, and of ten bytes read as a word: what a proof about the decoder and the
encoder cites instead of unfolding the concatenations. -/

namespace Sys2Proof

theorem getLsbD_concat {n m : Nat} (x : BitVec n) (y : BitVec m) (k : Nat) :
    BitVec.getLsbD (w := n + m) (x ++ y) k = if k < m then y.getLsbD k else x.getLsbD (k - m) := by
  rw [BitVec.getLsbD_append]

/-- Bit k of the word with the given fields (rule R60). -/
theorem getLsbD_joinFields (f : CommandFields) (k : Nat) :
    (joinFields f).getLsbD k =
      if k < 16 then f.ops.h.getLsbD k
      else if k < 32 then f.ops.w.getLsbD (k - 16)
      else if k < 48 then f.ops.y.getLsbD (k - 32)
      else if k < 64 then f.ops.x.getLsbD (k - 48)
      else if k < 65 then f.ops.on
      else if k < 66 then f.ops.ovr
      else if k < 72 then f.rsv.getLsbD (k - 66)
      else f.opc.getLsbD (k - 72) := by
  refine (getLsbD_concat _ _ _).trans ?_
  rw [getLsbD_concat (n := 8 + 6 + 1 + 1 + 16 + 16) (m := 16), getLsbD_concat (n := 8 + 6 + 1 + 1 + 16) (m := 16),
    getLsbD_concat (n := 8 + 6 + 1 + 1) (m := 16), getLsbD_concat (n := 8 + 6 + 1) (m := 1),
    getLsbD_concat (n := 8 + 6) (m := 1), getLsbD_concat (n := 8) (m := 6)]
  simp only [Nat.sub_sub, Nat.reduceAdd, BitVec.getLsbD_ofBool]
  grind

/-- Bit k of the fields of a word (rule R60). -/
theorem splitWord_bits (w : CommandWord) (k : Nat) :
    (splitWord w).opc.getLsbD k = (decide (k < 8) && w.getLsbD (72 + k)) ∧
    (splitWord w).rsv.getLsbD k = (decide (k < 6) && w.getLsbD (66 + k)) ∧
    (splitWord w).ops.x.getLsbD k = (decide (k < 16) && w.getLsbD (48 + k)) ∧
    (splitWord w).ops.y.getLsbD k = (decide (k < 16) && w.getLsbD (32 + k)) ∧
    (splitWord w).ops.w.getLsbD k = (decide (k < 16) && w.getLsbD (16 + k)) ∧
    (splitWord w).ops.h.getLsbD k = (decide (k < 16) && w.getLsbD k) ∧
    (splitWord w).ops.on = w.getLsbD 64 ∧ (splitWord w).ops.ovr = w.getLsbD 65 := by
  simp [splitWord]

/-- Bit k of ten bytes read as a word, the first byte the most significant (rule R60). -/
theorem getLsbD_tenBytes (b0 b1 b2 b3 b4 b5 b6 b7 b8 b9 : Byte) (k : Nat) :
    BitVec.getLsbD (w := 80) (b0 ++ b1 ++ b2 ++ b3 ++ b4 ++ b5 ++ b6 ++ b7 ++ b8 ++ b9) k =
      (([b9, b8, b7, b6, b5, b4, b3, b2, b1, b0][k / 8]?).getD 0).getLsbD (k % 8) := by
  refine (getLsbD_concat _ _ _).trans ?_
  rw [getLsbD_concat (n := 64) (m := 8), getLsbD_concat (n := 56) (m := 8), getLsbD_concat (n := 48) (m := 8),
    getLsbD_concat (n := 40) (m := 8), getLsbD_concat (n := 32) (m := 8), getLsbD_concat (n := 24) (m := 8),
    getLsbD_concat (n := 16) (m := 8), getLsbD_concat (n := 8) (m := 8)]
  by_cases h : k < 80
  · interval_cases k <;> rfl
  · rw [List.getElem?_eq_none (by simp; omega)]
    simp
    grind

end Sys2Proof
end

