-- ==== Sys2Proof/Laws/Forget.lean ====
section
/-! SUPPORT. The bus, the streaming phase and the loop of CONSTRUCT never read the operand registers: they commute with
forgetting them (rules R20, R63 d). -/

namespace Sys2Proof.Machine

/-- A flow with the operand registers forgotten. -/
def Flow.forget : Flow → Flow
  | .run s => .run s.forgetOperands
  | .raised e s => .raised e s.forgetOperands
  | .hung s => .hung s.forgetOperands
  | .fault x => .fault x

theorem forget_transact (t : Transaction) (s : State) : transact t s.forgetOperands = (transact t s).forget := by
  rw [transact_eq, transact_eq, show s.forgetOperands.answerAt 0 = s.answerAt 0 from rfl]
  cases s.answerAt 0 <;> rfl

theorem forget_andThen {f : Flow} {k : State → Flow} (hk : ∀ s, k s.forgetOperands = (k s).forget) :
    f.forget.andThen k = (f.andThen k).forget := by
  cases f <;> simp only [Flow.forget, Flow.andThen, hk]

theorem forget_cmdByte (v : Byte) (s : State) : cmdByte v s.forgetOperands = (cmdByte v s).forget := by
  unfold cmdByte
  rw [← forget_transact]
  rfl

theorem forget_setWindow (s : State) : setWindow s.forgetOperands = (setWindow s).forget := by
  unfold setWindow
  rw [forget_cmdByte]
  refine forget_andThen fun s => ?_
  rw [show s.forgetOperands.startCol = s.startCol from rfl, forget_cmdByte]
  refine forget_andThen fun s => ?_
  rw [show s.forgetOperands.endCol = s.endCol from rfl, forget_cmdByte]
  refine forget_andThen fun s => ?_
  rw [show s.forgetOperands.cfg = s.cfg from rfl, forget_cmdByte]
  refine forget_andThen fun s => ?_
  rw [show s.forgetOperands.startPage = s.startPage from rfl, forget_cmdByte]
  refine forget_andThen fun s => ?_
  rw [show s.forgetOperands.endPage = s.endPage from rfl, forget_cmdByte]

theorem forget_flush (s : State) : flush s.forgetOperands = (flush s).forget := by
  unfold flush
  rw [show s.forgetOperands.scratch = s.scratch from rfl, show s.forgetOperands.sidx = s.sidx from rfl]
  cases memReadRange s.scratch 0 s.sidx with
  | none => rfl
  | some bs =>
    simp only []
    rw [show dataBufTx s.forgetOperands bs = dataBufTx s bs from rfl, forget_transact]
    exact forget_andThen fun s => rfl

theorem forget_append (v : Byte) (s : State) : append v s.forgetOperands = (append v s).forget := by
  unfold append
  simp only []
  rw [show s.forgetOperands.sidx = s.sidx from rfl, show s.forgetOperands.cfg = s.cfg from rfl]
  split
  · rw [← forget_flush]
    rfl
  · rfl

theorem forget_streamCols (n : Nat) (s : State) : streamCols n s.forgetOperands = (streamCols n s).forget := by
  induction n generalizing s with
  | zero => rfl
  | succ n ih =>
    unfold streamCols
    rw [show s.forgetOperands.fb = s.fb from rfl, show s.forgetOperands.cfg = s.cfg from rfl,
      show s.forgetOperands.page = s.page from rfl, show s.forgetOperands.col = s.col from rfl]
    cases memRead s.fb (byteIndex s.cfg s.page s.col) with
    | none => rfl
    | some v =>
      simp only []
      rw [forget_append]
      refine forget_andThen fun s => ?_
      rw [← ih]
      rfl

theorem forget_streamPages (n : Nat) (s : State) : streamPages n s.forgetOperands = (streamPages n s).forget := by
  induction n generalizing s with
  | zero => rfl
  | succ n ih =>
    unfold streamPages
    have h := forget_streamCols (s.endCol.toNat + 1 - s.startCol.toNat) { s with col := s.startCol.toNat }
    rw [show streamCols (s.forgetOperands.endCol.toNat + 1 - s.forgetOperands.startCol.toNat)
      { s.forgetOperands with col := s.forgetOperands.startCol.toNat } = _ from h]
    refine forget_andThen fun s => ?_
    rw [← ih]
    rfl

theorem forget_stream (s : State) : stream s.forgetOperands = (stream s).forget := by
  unfold stream
  have h := forget_streamPages (s.endPage.toNat + 1 - s.startPage.toNat)
    { s with sidx := 0, page := s.startPage.toNat }
  rw [show streamPages (s.forgetOperands.endPage.toNat + 1 - s.forgetOperands.startPage.toNat)
    { s.forgetOperands with sidx := 0, page := s.forgetOperands.startPage.toNat } = _ from h]
  refine forget_andThen fun s => ?_
  unfold flushRest
  rw [show s.forgetOperands.sidx = s.sidx from rfl]
  split
  · exact forget_flush s
  · rfl

theorem forget_finish (f : Flow) : forgetOperands f.finish = forgetOperands f.forget.finish := by
  cases f <;> rfl

theorem forget_sendInit (vs : List Byte) (s : State) :
    (sendInit vs s).forgetOperands = sendInit vs s.forgetOperands := by
  induction vs generalizing s with
  | nil => rfl
  | cons v vs ih =>
    simp only [sendInit, issue_eq]
    rw [show s.forgetOperands.answerAt 0 = s.answerAt 0 from rfl]
    cases s.answerAt 0
    · simp only []
      rw [ih]
      rfl
    · rfl
    · rfl

end Sys2Proof.Machine
end

