-- ==== Sys2Proof/Laws/Pixel.lean ====
section
/-! SUPPORT. The laws of the bit indexer (rules R41, R83, R84) and of the drawing operations (rules R84, R86). -/

namespace Sys2Proof.Machine

/-! ## Legal configurations -/

theorem legal_iff (c : Config) :
    c.legal = true ↔
      1 ≤ c.width ∧ c.width ≤ 256 ∧ 8 ≤ c.height ∧ c.height ≤ 2048 ∧ c.height % 8 = 0 ∧ 1 ≤ c.mts ∧ c.mts ≤ 255 := by
  simp [Config.legal, and_assoc]

theorem height_eq {c : Config} (h : c.legal = true) : c.height = 8 * c.pages := by
  obtain ⟨-, -, -, -, h8, -⟩ := (legal_iff c).mp h
  simp only [Config.pages]
  omega

theorem fbBytes_eq {c : Config} (h : c.legal = true) : c.fbBytes = c.pages * c.width := by
  simp only [Config.fbBytes, height_eq h]
  rw [show c.width * (8 * c.pages) = 8 * (c.pages * c.width) by rw [Nat.mul_comm c.pages, Nat.mul_left_comm],
    Nat.mul_div_cancel_left _ (by omega)]

/-- A byte of a page inside the surface is a byte of `FB` (rules R46, R119). -/
theorem byteIndex_lt {c : Config} (h : c.legal = true) {p cl : Nat} (hp : p < c.pages) (hc : cl < c.width) :
    byteIndex c p cl < c.fbBytes := by
  rw [fbBytes_eq h, byteIndex]
  calc p * c.width + cl < p * c.width + c.width := by omega
    _ = (p + 1) * c.width := by rw [Nat.add_mul, Nat.one_mul]
    _ ≤ c.pages * c.width := Nat.mul_le_mul_right _ hp

/-! ## The bit indexer -/

theorem inRange_iff (c : Config) (x y : Int) :
    inRange c x y = true ↔ 0 ≤ x ∧ x < c.width ∧ 0 ≤ y ∧ y < c.height := by
  simp [inRange, and_assoc]

/-- On in-range pixels the index and the bit are the page, column and row of rule R41, over the naturals. -/
theorem pixelIndex_ofNat (c : Config) (x y : Nat) : pixelIndex c x y = byteIndex c (y / 8) x := by
  simp only [pixelIndex, byteIndex]
  rw [show ((x : Int) + (y : Int) / 8 * (c.width : Int)) = ((y / 8 * c.width + x : Nat) : Int) by push_cast; ring]
  exact Int.toNat_natCast _

theorem pixelBit_ofNat (y : Nat) : pixelBit y = y % 8 := by
  simp only [pixelBit]
  omega

theorem pixelBit_lt (y : Int) : pixelBit y < 8 := by
  simp only [pixelBit]
  omega

/-- `PixelAddr` of an in-range pixel is a byte of `FB` (rule R83). -/
theorem pixelIndex_lt {c : Config} (h : c.legal = true) {x y : Int} (hr : inRange c x y = true) :
    pixelIndex c x y < c.fbBytes := by
  obtain ⟨hx, hxw, hy, hyh⟩ := (inRange_iff c x y).mp hr
  obtain ⟨a, rfl⟩ := Int.eq_ofNat_of_zero_le hx
  obtain ⟨b, rfl⟩ := Int.eq_ofNat_of_zero_le hy
  have hh := height_eq h
  rw [pixelIndex_ofNat]
  exact byteIndex_lt h (by omega) (by omega)

/-- Two in-range pixels with one index and one bit are one pixel (rule R41). -/
theorem pixel_inj {c : Config} {x y x' y' : Int} (hr : inRange c x y = true)
    (hr' : inRange c x' y' = true) (hi : pixelIndex c x y = pixelIndex c x' y') (hb : pixelBit y = pixelBit y') :
    x = x' ∧ y = y' := by
  obtain ⟨hx, hxw, hy, hyh⟩ := (inRange_iff c x y).mp hr
  obtain ⟨hx', hxw', hy', hyh'⟩ := (inRange_iff c x' y').mp hr'
  obtain ⟨a, rfl⟩ := Int.eq_ofNat_of_zero_le hx
  obtain ⟨b, rfl⟩ := Int.eq_ofNat_of_zero_le hy
  obtain ⟨a', rfl⟩ := Int.eq_ofNat_of_zero_le hx'
  obtain ⟨b', rfl⟩ := Int.eq_ofNat_of_zero_le hy'
  simp only [pixelIndex_ofNat, byteIndex, pixelBit_ofNat] at hi hb
  have hw : a < c.width := by omega
  have hw' : a' < c.width := by omega
  have e1 : (b / 8 * c.width + a) % c.width = a := by
    rw [Nat.add_comm, Nat.add_mul_mod_self_right, Nat.mod_eq_of_lt hw]
  have e2 : (b' / 8 * c.width + a') % c.width = a' := by
    rw [Nat.add_comm, Nat.add_mul_mod_self_right, Nat.mod_eq_of_lt hw']
  have ea : a = a' := by rw [← e1, ← e2, hi]
  subst ea
  have em : b / 8 * c.width = b' / 8 * c.width := by omega
  have ep : b / 8 = b' / 8 := Nat.eq_of_mul_eq_mul_right (by omega) em
  omega

/-! ## Bits of a byte -/

theorem getLsbD_bitMask {b : Nat} (k : Nat) (hb : b < 8) : (bitMask b).getLsbD k = decide (k = b) := by
  simp only [bitMask, BitVec.getLsbD_shiftLeft, BitVec.getLsbD_one]
  by_cases hk : k = b
  · simp [hk, hb]
  · simp [hk]
    omega

/-- The bits of the mask become `on`, the others stay (rule R84). -/
theorem getLsbD_applyOn (on : Bool) (mask old : Byte) (k : Nat) (hk : k < 8) :
    (applyOn on mask old).getLsbD k = if mask.getLsbD k then on else old.getLsbD k := by
  cases on <;> simp only [applyOn, if_true, if_false, Bool.false_eq_true, BitVec.getLsbD_or, BitVec.getLsbD_and,
    BitVec.getLsbD_not, hk, decide_true, Bool.true_and] <;> cases mask.getLsbD k <;> simp

theorem applyOn_zero (on : Bool) (old : Byte) : applyOn on 0 old = old := by
  cases on
  · simp only [applyOn, Bool.false_eq_true, if_false]
    exact BitVec.and_allOnes
  · simp [applyOn]

theorem getLsbD_foldl_mask (P : Nat → Prop) [DecidablePred P] (bs : List Nat) (hbs : ∀ b ∈ bs, b < 8) (m : Byte)
    (k : Nat) :
    (bs.foldl (fun m b => if P b then m ||| bitMask b else m) m).getLsbD k =
      (m.getLsbD k || decide (k ∈ bs ∧ P k)) := by
  induction bs generalizing m with
  | nil => simp
  | cons b bs ih =>
    have hb := hbs b (by simp)
    rw [List.foldl_cons, ih (fun a ha => hbs a (by simp [ha]))]
    by_cases hP : P b
    · rw [if_pos hP, BitVec.getLsbD_or, getLsbD_bitMask k hb]
      by_cases hk : k = b
      · simp [hk, hP]
      · simp [hk]
    · rw [if_neg hP]
      by_cases hk : k = b
      · simp [hk, hP]
      · simp [hk]

theorem getLsbD_rowsMask (y h : Int) (top k : Nat) :
    (rowsMask y h top).getLsbD k =
      decide (k < 8 ∧ y ≤ ((top + k : Nat) : Int) ∧ ((top + k : Nat) : Int) < y + h) := by
  rw [rowsMask, getLsbD_foldl_mask (fun b => y ≤ ((top + b : Nat) : Int) ∧ ((top + b : Nat) : Int) < y + h) _ (by simp)]
  simp

/-- Bit k of the rectangle's mask of byte i says whether pixel (i mod W, 8 (i div W) + k) is in the rectangle. -/
theorem getLsbD_rectMask (c : Config) (x y w h : Int) (i k : Nat) :
    (rectMask c x y w h i).getLsbD k =
      decide (k < 8 ∧ x ≤ ((i % c.width : Nat) : Int) ∧ ((i % c.width : Nat) : Int) < x + w ∧
        y ≤ ((8 * (i / c.width) + k : Nat) : Int) ∧ ((8 * (i / c.width) + k : Nat) : Int) < y + h) := by
  simp only [rectMask]
  split
  · rename_i hc
    rw [getLsbD_rowsMask]
    congr 1
    simp only [eq_iff_iff]
    tauto
  · rename_i hc
    simp only [BitVec.ofNat_eq_ofNat, BitVec.getLsbD_zero]
    symm
    rw [decide_eq_false_iff_not]
    tauto

/-! ## SetPixel -/

/-- What `SetPixel` can do (rule R84): ignore an out-of-range pixel, change one byte, or stop at an unwritten byte. -/
theorem drawPixel_cases (c : Config) (x y : Int) (on : Bool) (fb : Memory) :
    (inRange c x y = false ∧ drawPixel c x y on fb = .ok fb) ∨
    (inRange c x y = true ∧ ∃ old, memRead fb (pixelIndex c x y) = some old ∧
      drawPixel c x y on fb = .ok (memWrite fb (pixelIndex c x y) (applyOn on (bitMask (pixelBit y)) old))) ∨
    (inRange c x y = true ∧ memRead fb (pixelIndex c x y) = none ∧
      drawPixel c x y on fb = .error (.unwrittenFramebuffer (pixelIndex c x y))) := by
  unfold drawPixel
  cases hr : inRange c x y
  · simp
  · cases hm : memRead fb (pixelIndex c x y) <;> simp

/-- On a written `FB`, `SetPixel` does not stop, and keeps the canonical form and what is written. -/
theorem drawPixel_written {c : Config} (h : c.legal = true) (x y : Int) (on : Bool) {fb : Memory}
    (hf : memWritten c.fbBytes fb = true) (hw : Memory.wf c.fbBytes fb = true) :
    ∃ fb', drawPixel c x y on fb = .ok fb' ∧ memWritten c.fbBytes fb' = true ∧ Memory.wf c.fbBytes fb' = true := by
  rcases drawPixel_cases c x y on fb with ⟨-, e⟩ | ⟨hr, old, -, e⟩ | ⟨hr, hn, -⟩
  · exact ⟨fb, e, hf, hw⟩
  · exact ⟨_, e, memWritten_memWrite _ _ hf, wf_memWrite (pixelIndex_lt h hr) hw⟩
  · obtain ⟨v, hv⟩ := memWritten_iff.mp hf _ (pixelIndex_lt h hr)
    rw [hv] at hn
    cases hn

/-- What SET_PIXEL leaves in each pixel (rules R84, R89 b). -/
theorem pixelOf_drawPixel {c : Config} {fb : Memory} {x y : Int} {on : Bool} {old : Byte}
    (hr : inRange c x y = true) (ho : memRead fb (pixelIndex c x y) = some old) {px py : Int}
    (hp : inRange c px py = true) :
    pixelOf c (memWrite fb (pixelIndex c x y) (applyOn on (bitMask (pixelBit y)) old)) px py =
      if px = x ∧ py = y then some on else pixelOf c fb px py := by
  unfold pixelOf
  rw [memRead_memWrite]
  split
  · rename_i he
    simp only [Option.map_some, getLsbD_applyOn _ _ _ _ (pixelBit_lt _), getLsbD_bitMask _ (pixelBit_lt _)]
    by_cases hb : pixelBit py = pixelBit y
    · obtain ⟨rfl, rfl⟩ := pixel_inj hp hr he hb
      simp
    · rw [if_neg (by simpa using hb), if_neg (by rintro ⟨rfl, rfl⟩; exact hb rfl), he, ho]
      rfl
  · rename_i he
    rw [if_neg]
    rintro ⟨rfl, rfl⟩
    exact he rfl

/-! ## CLEAR_RECT -/

/-- On a written `FB`, the rectangle's bytes are all written. -/
theorem rectUnwritten_written {c : Config} {fb : Memory} (x y w h : Int) (hf : memWritten c.fbBytes fb = true) :
    rectUnwritten c x y w h fb = none := by
  rw [rectUnwritten, List.find?_eq_none]
  intro i hi
  obtain ⟨v, hv⟩ := memWritten_iff.mp hf i (List.mem_range.mp hi)
  simp [hv]

/-- On a written `FB`, CLEAR_RECT applies the rectangle's mask to every byte (rule R86). -/
theorem drawRect_written {c : Config} {fb : Memory} (x y w h : Int) (on : Bool) (hf : memWritten c.fbBytes fb = true) :
    drawRect c x y w h on fb =
      .ok (fb.map fun cell => (cell.1, applyOn on (rectMask c x y w h cell.1) cell.2)) := by
  simp only [drawRect, rectUnwritten_written x y w h hf]

/-- What CLEAR_RECT can do: change listed bytes in place, or stop at an unwritten byte of the rectangle. -/
theorem drawRect_cases (c : Config) (x y w h : Int) (on : Bool) (fb : Memory) :
    drawRect c x y w h on fb = .ok (fb.map fun cell => (cell.1, applyOn on (rectMask c x y w h cell.1) cell.2)) ∨
    ∃ i, i < c.fbBytes ∧ memRead fb i = none ∧ drawRect c x y w h on fb = .error (.unwrittenFramebuffer i) := by
  unfold drawRect
  cases hu : rectUnwritten c x y w h fb with
  | none => simp
  | some i =>
    refine .inr ⟨i, ?_, ?_, rfl⟩
    · exact List.mem_range.mp (List.mem_of_find?_eq_some hu)
    · have := List.find?_some hu
      simp at this
      exact this.2

/-- What CLEAR_RECT leaves in each pixel (rule R86, closed form). -/
theorem pixelOf_drawRect (c : Config) (x y w h : Int) (on : Bool) (fb : Memory) (px py : Int)
    (hr : inRange c px py = true) :
    pixelOf c (fb.map fun cell => (cell.1, applyOn on (rectMask c x y w h cell.1) cell.2)) px py =
      (pixelOf c fb px py).map fun v =>
        if x ≤ px ∧ px < x + w ∧ y ≤ py ∧ py < y + h then on else v := by
  obtain ⟨hx, hxw, hy, hyh⟩ := (inRange_iff c px py).mp hr
  obtain ⟨a, rfl⟩ := Int.eq_ofNat_of_zero_le hx
  obtain ⟨b, rfl⟩ := Int.eq_ofNat_of_zero_le hy
  simp only [pixelOf, memRead_map (fun i v => applyOn on (rectMask c x y w h i) v), Option.map_map]
  congr 1
  funext v
  have hw : a < c.width := by omega
  have e1 : byteIndex c (b / 8) a % c.width = a := by
    rw [byteIndex, Nat.add_comm, Nat.add_mul_mod_self_right, Nat.mod_eq_of_lt hw]
  have e2 : byteIndex c (b / 8) a / c.width = b / 8 := by
    rw [byteIndex, Nat.add_comm, Nat.add_mul_div_right _ _ (by omega), Nat.div_eq_of_lt hw, Nat.zero_add]
  have h8 : b % 8 < 8 := Nat.mod_lt _ (by omega)
  simp only [Function.comp_apply, pixelIndex_ofNat, pixelBit_ofNat]
  rw [getLsbD_applyOn _ _ _ _ h8, getLsbD_rectMask, e1, e2, show 8 * (b / 8) + b % 8 = b by omega]
  simp only [h8, true_and, decide_eq_true_eq]

end Sys2Proof.Machine
end

