-- ==== Sys2Proof/Laws/Update.lean ====
section
/-! SUPPORT. What an update does once its rectangle is accepted (rules R116 to R119, R133, R134, R136, R154): the
window registers, the six command bytes, the chunks, for every sequence of answers. -/

namespace Sys2Proof.Machine

/-- The equivalent form of rule R117. -/
theorem rejects_eq_false_iff (c : Config) (x y w h : Int) :
    rejects c x y w h = false ↔ 0 ≤ x ∧ 0 ≤ y ∧ 1 ≤ w ∧ 1 ≤ h ∧ x + w ≤ c.width ∧ y + h ≤ c.height := by
  simp only [rejects, Bool.or_eq_false_iff, decide_eq_false_iff_not]
  omega

/-- The ranges of rule R119 for an accepted rectangle. -/
theorem window_range {c : Config} (hl : c.legal = true) {x y w h : Int} (ha : rejects c x y w h = false) :
    startColOf x ≤ endColOf x w ∧ endColOf x w < c.width ∧ endColOf x w < 256 ∧
    startPageOf y ≤ endPageOf y h ∧ endPageOf y h < c.pages ∧ endPageOf y h < 256 ∧
    endColOf x w + 1 - startColOf x = w.toNat := by
  obtain ⟨h1, h2, h3, h4, h5, h6⟩ := (rejects_eq_false_iff c x y w h).mp ha
  obtain ⟨a1, a2, a3, a4, -⟩ := (legal_iff c).mp hl
  have hh := height_eq hl
  simp only [startColOf, endColOf, startPageOf, endPageOf]
  omega

theorem ofInt_toNat {v : Int} (h : 0 ≤ v) : BitVec.ofInt 8 v = BitVec.ofNat 8 v.toNat := by
  obtain ⟨n, rfl⟩ := Int.eq_ofNat_of_zero_le h
  simp

/-- The window computation on the operand registers is the window of rule R118. -/
theorem computeWindow_eq {s : State}
    (ha : rejects s.cfg s.opx.toInt s.opy.toInt s.opw.toInt s.oph.toInt = false) :
    computeWindow s = s.windowed s.opx.toInt s.opy.toInt s.opw.toInt s.oph.toInt := by
  obtain ⟨h1, h2, h3, h4, h5, h6⟩ := (rejects_eq_false_iff _ _ _ _ _).mp ha
  simp only [computeWindow, State.windowed, startColOf, endColOf, startPageOf, endPageOf]
  rw [ofInt_toNat h1, ofInt_toNat (by omega), ofInt_toNat (by omega), ofInt_toNat (by omega)]

theorem map_range_mul {α : Type} (n w : Nat) (f : Nat → α) :
    (List.range (n * w)).map f = (List.range n).flatMap fun i => (List.range w).map fun j => f (i * w + j) := by
  induction n with
  | zero => simp
  | succ n ih =>
    rw [Nat.add_mul, Nat.one_mul, List.range_add, List.map_append, ih, List.range_succ, List.flatMap_append]
    simp [Function.comp_def]

/-- The bytes the loops of rule R130 read are the stream of rule R133. -/
theorem windowBytes_windowed {s : State} (hl : s.cfg.legal = true) {x y w h : Int}
    (ha : rejects s.cfg x y w h = false) : windowBytes (s.windowed x y w h) = streamBytes s x y w h := by
  obtain ⟨b1, b2, b3, b4, b5, b6, b7⟩ := window_range hl ha
  obtain ⟨-, -, h3, -, -, -⟩ := (rejects_eq_false_iff _ _ _ _ _).mp ha
  have hw : 0 < w.toNat := by omega
  have e1 : (BitVec.ofNat 8 (startColOf x)).toNat = startColOf x := by simp; omega
  have e2 : (BitVec.ofNat 8 (endColOf x w)).toNat = endColOf x w := by simp; omega
  have e3 : (BitVec.ofNat 8 (startPageOf y)).toNat = startPageOf y := by simp; omega
  have e4 : (BitVec.ofNat 8 (endPageOf y h)).toNat = endPageOf y h := by simp; omega
  simp only [windowBytes, pageBytes, State.windowed, streamBytes, e1, e2, e3, e4, b7]
  rw [streamLength, show endPageOf y h - startPageOf y + 1 = endPageOf y h + 1 - startPageOf y by omega, map_range_mul]
  congr 1
  funext i
  apply List.map_congr_left
  intro j hj
  have hj' := List.mem_range.mp hj
  rw [streamIndex, byteIndex, Nat.add_comm (i * w.toNat), Nat.add_mul_div_right _ _ hw, Nat.div_eq_of_lt hj',
    Nat.add_mul_mod_self_right, Nat.mod_eq_of_lt hj', Nat.zero_add, Nat.add_assoc]

theorem streamBytes_length (s : State) (x y w h : Int) : (streamBytes s x y w h).length = streamLength y w h := by
  simp [streamBytes]

theorem chunkTxs_length (s : State) (bytes : List Byte) :
    (chunkTxs s bytes).length = chunkCount s.cfg.mts bytes.length := by
  simp [chunkTxs, chunks]

/-- An accepted update issues 6 + ceil(N / MTS) transactions (rule R122 c). -/
theorem updateTxs_length (s : State) (x y w h : Int) :
    (updateTxs s x y w h).length = 6 + chunkCount s.cfg.mts (streamLength y w h) := by
  simp [updateTxs, windowTxs, chunkTxs_length, streamBytes_length]
  omega

theorem endedEntries_append (ts us : List Transaction) (k : Nat) (a : Answer) (hk : ts.length ≤ k) :
    endedEntries (ts ++ us) k a = okEntries ts ++ endedEntries us (k - ts.length) a := by
  simp [endedEntries, okEntries, List.take_append, List.take_of_length_le hk, List.drop_append,
    List.drop_of_length_le hk]

theorem endedEntries_left (ts us : List Transaction) (k : Nat) (a : Answer) (hk : k < ts.length) :
    endedEntries (ts ++ us) k a = endedEntries ts k a := by
  simp only [endedEntries, okEntries]
  rw [List.take_append_of_le_length (by omega), List.drop_append_of_le_length (by omega)]
  cases hd : ts.drop k with
  | nil => simp at hd; omega
  | cons t rest => simp

theorem endedEntries_getLast {ts : List Transaction} {k : Nat} (a : Answer) (hk : k < ts.length) :
    (endedEntries ts k a).getLast? = some ⟨ts[k], a⟩ := by
  simp [endedEntries, hk]

/-- What streaming flows of one core have in common: the end state up to what the phase works on. -/
theorem eq_streamed {s t : State} (h : s.streamed [] 0 0 0 = t.streamed [] 0 0 0) :
    s = t.streamed s.scratch s.sidx s.page s.col :=
  eq_of_streamed_eq h rfl rfl rfl rfl

/-- The flow of an accepted update. -/
def updateFlow (s : State) (x y w h : Int) : Flow := (setWindow (s.windowed x y w h)).andThen stream

theorem updateRectangle_accepted {s : State}
    (ha : rejects s.cfg s.opx.toInt s.opy.toInt s.opw.toInt s.oph.toInt = false) :
    updateRectangle s = (updateFlow s s.opx.toInt s.opy.toInt s.opw.toInt s.oph.toInt).finish := by
  simp only [updateRectangle, ha, computeWindow_eq ha, updateFlow, Bool.false_eq_true, if_false]

/-- What an accepted update can do, for all answers at once: up to what the streaming phase works on it is the
delivery of the transactions of rules R104 and R134 in order; in the window phase nothing of that is touched. -/
theorem updateFlow_spec {s : State} (hl : s.cfg.legal = true) (hf : memWritten s.cfg.fbBytes s.fb = true)
    {x y w h : Int} (ha : rejects s.cfg x y w h = false) :
    setWindow (s.windowed x y w h) = deliver (windowTxs s x y w h) (s.windowed x y w h) ∧
    ∀ s1, deliver (windowTxs s x y w h) (s.windowed x y w h) = .run s1 →
      Sends (stream s1) (chunkTxs s (streamBytes s x y w h)) s1
        (fun s' => (Memory.wf s.cfg.mts s.scratch = true → Memory.wf s.cfg.mts s'.scratch = true) ∧ s'.sidx = 0 ∧
          s'.page = endPageOf y h + 1 ∧ s'.col = endColOf x w + 1)
        (Stopped (s.windowed x y w h)) := by
  obtain ⟨b1, b2, b3, b4, b5, b6, b7⟩ := window_range hl ha
  have e1 : (BitVec.ofNat 8 (startColOf x)).toNat = startColOf x := by simp; omega
  have e2 : (BitVec.ofNat 8 (endColOf x w)).toNat = endColOf x w := by simp; omega
  have e3 : (BitVec.ofNat 8 (startPageOf y)).toNat = startPageOf y := by simp; omega
  have e4 : (BitVec.ofNat 8 (endPageOf y h)).toNat = endPageOf y h := by simp; omega
  refine ⟨setWindow_eq_deliver _, ?_⟩
  intro s1 h1
  have hs1 : s1 = ((s.windowed x y w h).spent 6).logged (okEntries (windowTxs s x y w h)) := by
    rcases answers_cases (s.windowed x y w h) 6 with hok | ⟨k, a, hk, hok, hka, hne⟩
    · rw [deliver_allOk (ts := windowTxs s x y w h) hok] at h1
      exact (Flow.run.inj h1).symm
    · rw [deliver_ended (ts := windowTxs s x y w h) hk hok hka hne] at h1
      cases a <;> simp_all
  have hwin : windowBytes s1 = streamBytes s x y w h := by
    rw [← windowBytes_windowed hl ha, hs1]
    rfl
  have hm : 1 ≤ s1.cfg.mts := by
    rw [hs1]
    exact ((legal_iff _).mp hl).2.2.2.2.2.1
  have hc : s1.startCol.toNat = startColOf x := by rw [hs1]; exact e1
  have hc' : s1.endCol.toNat = endColOf x w := by rw [hs1]; exact e2
  have hp : s1.startPage.toNat = startPageOf y := by rw [hs1]; exact e3
  have hp' : s1.endPage.toNat = endPageOf y h := by rw [hs1]; exact e4
  have hcfg : s1.cfg = s.cfg := by rw [hs1]; rfl
  have hdev : s1.devAddr = s.devAddr := by rw [hs1]; rfl
  have hfb : s1.fb = s.fb := by rw [hs1]; rfl
  have hscr : s1.scratch = s.scratch := by rw [hs1]; rfl
  have key := sends_stream (s0 := s1) hm (by omega) (by omega) (fun pg cl _ h2 _ h4 => by
    rw [hcfg, hfb, Option.isSome_iff_exists]
    exact memWritten_iff.mp hf _ (byteIndex_lt hl (by omega) (by omega)))
  rw [hwin, hcfg, hdev] at key
  have htx : (chunks s.cfg.mts (streamBytes s x y w h)).map (bufTx s.cfg s.devAddr) =
      chunkTxs s (streamBytes s x y w h) := rfl
  rw [htx] at key
  refine key.weaken ?_ ?_
  · rintro s' ⟨hmid, hi⟩
    refine ⟨?_, hi, by rw [hmid.page, hp'], by rw [hmid.col, hc']⟩
    have := hmid.wf
    rwa [hcfg, hscr] at this
  · rintro s' ⟨hch, hw, hpg, hcl⟩
    refine ⟨?_, ?_, ?_, ?_⟩
    · rw [hcfg, hdev] at hch; exact hch
    · rw [hcfg, hscr] at hw; exact hw
    · rw [hp'] at hpg
      show s'.page ≤ (BitVec.ofNat 8 (endPageOf y h)).toNat + 1
      rw [e4]; exact hpg
    · rw [hc'] at hcl
      show s'.col ≤ (BitVec.ofNat 8 (endColOf x w)).toNat + 1
      rw [e2]; exact hcl

/-- Every transaction answered `ok` (rules R116, R133, R134). -/
theorem updateFlow_allOk {s : State} (hl : s.cfg.legal = true) (hf : memWritten s.cfg.fbBytes s.fb = true)
    {x y w h : Int} (ha : rejects s.cfg x y w h = false) (hok : s.AllOk (updateTxs s x y w h).length) :
    ∃ m, (Memory.wf s.cfg.mts s.scratch = true → Memory.wf s.cfg.mts m = true) ∧
      updateFlow s x y w h = .run
        ((((s.windowed x y w h).spent (updateTxs s x y w h).length).logged (okEntries (updateTxs s x y w h))).streamed
          m 0 (endPageOf y h + 1) (endColOf x w + 1)) := by
  obtain ⟨h1, h2⟩ := updateFlow_spec hl hf ha
  have hlen : (updateTxs s x y w h).length = 6 + (chunkTxs s (streamBytes s x y w h)).length := by
    simp [updateTxs, windowTxs]
    omega
  have hd1 := deliver_allOk (ts := windowTxs s x y w h) (s := s.windowed x y w h)
    (fun k hk => hok k (by rw [hlen]; simp [windowTxs] at hk; omega))
  have hs := h2 _ hd1
  rw [updateFlow, h1, hd1]
  simp only [Flow.andThen]
  have hd2 := deliver_allOk (ts := chunkTxs s (streamBytes s x y w h))
    (s := (((s.windowed x y w h).spent 6).logged (okEntries (windowTxs s x y w h))).streamed [] 0 0 0)
    (fun k hk => by
      have := answerAt_spent (s.windowed x y w h) 6 k
      exact this.trans (hok (6 + k) (by rw [hlen]; omega)))
  have hcore := hs.core
  have hpost := hs.post
  have hd2' : deliver (chunkTxs s (streamBytes s x y w h))
      ((((s.windowed x y w h).spent (windowTxs s x y w h).length).logged
        (okEntries (windowTxs s x y w h))).streamed [] 0 0 0) = _ := hd2
  rw [hd2'] at hcore
  revert hcore hpost
  generalize stream _ = f
  intro hcore hpost
  cases f with
  | run s' =>
    obtain ⟨hw, hi, hp, hc⟩ := hpost
    simp only [Flow.core, Flow.run.injEq] at hcore
    refine ⟨s'.scratch, hw, ?_⟩
    congr 1
    have e := eq_streamed (s := s')
      (t := ((s.windowed x y w h).spent (updateTxs s x y w h).length).logged (okEntries (updateTxs s x y w h))) ?_
    · rw [hi, hp, hc] at e; exact e
    · rw [hcore, hlen, ← spent_spent]
      simp [State.logged, State.streamed, State.spent, okEntries, updateTxs]
  | raised e s' => simp [Flow.core] at hcore
  | hung s' => simp [Flow.core] at hcore
  | fault e => exact hpost.elim

/-- The k-th answer is the first that is not `ok` (rules R136, R154): in the window phase (k < 6) nothing the stream
works on is touched; in the data phase the failed chunk is left in `SCRATCH` and `SIDX` is its length. -/
theorem updateFlow_ended {s : State} (hl : s.cfg.legal = true) (hf : memWritten s.cfg.fbBytes s.fb = true)
    {x y w h : Int} (ha : rejects s.cfg x y w h = false) {k : Nat} {a : Answer}
    (hk : k < (updateTxs s x y w h).length) (hok : s.AllOk k) (hka : s.answerAt k = a) (hne : a ≠ .ok) :
    ∃ m i p c,
      (Memory.wf s.cfg.mts s.scratch = true → Memory.wf s.cfg.mts m = true) ∧
      (k < 6 → m = s.scratch ∧ i = s.sidx ∧ p = s.page ∧ c = s.col) ∧
      (6 ≤ k → memReadRange m 0 i = some (chunk s.cfg.mts (streamBytes s x y w h) (k - 6)) ∧
        i = (chunk s.cfg.mts (streamBytes s x y w h) (k - 6)).length ∧ i ≤ s.cfg.mts ∧
        p ≤ endPageOf y h + 1 ∧ c ≤ endColOf x w + 1) ∧
      updateFlow s x y w h =
        (if a = .err then Flow.raised .transportError else Flow.hung)
          ((((s.windowed x y w h).spent (k + 1)).logged (endedEntries (updateTxs s x y w h) k a)).streamed m i p c) := by
  obtain ⟨h1, h2⟩ := updateFlow_spec hl hf ha
  have hlen : (updateTxs s x y w h).length = 6 + (chunkTxs s (streamBytes s x y w h)).length := by
    simp [updateTxs, windowTxs]
    omega
  have h6 : (windowTxs s x y w h).length = 6 := rfl
  rw [updateFlow, h1]
  by_cases hk6 : k < 6
  · rw [deliver_ended (ts := windowTxs s x y w h) (s := s.windowed x y w h) hk6 hok hka hne]
    refine ⟨s.scratch, s.sidx, s.page, s.col, fun h => h, fun _ => ⟨rfl, rfl, rfl, rfl⟩, fun h => by omega, ?_⟩
    rw [updateTxs, endedEntries_left _ _ _ _ (by omega)]
    split <;> rfl
  · obtain ⟨j, rfl⟩ : ∃ j, k = 6 + j := ⟨k - 6, by omega⟩
    have hd1 := deliver_allOk (ts := windowTxs s x y w h) (s := s.windowed x y w h)
      (fun i hi => hok i (by rw [h6] at hi; omega))
    have hs := h2 _ hd1
    rw [hd1]
    simp only [Flow.andThen]
    have hj : j < (chunkTxs s (streamBytes s x y w h)).length := by omega
    have hd2 := deliver_ended (ts := chunkTxs s (streamBytes s x y w h))
      (s := (((s.windowed x y w h).spent 6).logged (okEntries (windowTxs s x y w h))).streamed [] 0 0 0)
      (k := j) (a := a) hj
      (fun i hi => by
        have := answerAt_spent (s.windowed x y w h) 6 i
        exact this.trans (hok (6 + i) (by omega)))
      (by
        have := answerAt_spent (s.windowed x y w h) 6 j
        exact this.trans hka) hne
    have hcore := hs.core
    have hpost := hs.post
    have hd2' : deliver (chunkTxs s (streamBytes s x y w h))
        ((((s.windowed x y w h).spent (windowTxs s x y w h).length).logged
          (okEntries (windowTxs s x y w h))).streamed [] 0 0 0) = _ := hd2
    rw [hd2'] at hcore
    have hmain : ∀ s', Stopped (s.windowed x y w h) s' →
        s'.streamed [] 0 0 0 =
          ((((((s.windowed x y w h).spent 6).logged (okEntries (windowTxs s x y w h))).streamed [] 0 0 0).spent
            (j + 1)).logged (endedEntries (chunkTxs s (streamBytes s x y w h)) j a)) →
        ∃ m i p c,
          (Memory.wf s.cfg.mts s.scratch = true → Memory.wf s.cfg.mts m = true) ∧
          (6 + j < 6 → m = s.scratch ∧ i = s.sidx ∧ p = s.page ∧ c = s.col) ∧
          (6 ≤ 6 + j → memReadRange m 0 i = some (chunk s.cfg.mts (streamBytes s x y w h) (6 + j - 6)) ∧
            i = (chunk s.cfg.mts (streamBytes s x y w h) (6 + j - 6)).length ∧ i ≤ s.cfg.mts ∧
            p ≤ endPageOf y h + 1 ∧ c ≤ endColOf x w + 1) ∧
          s' = ((((s.windowed x y w h).spent (6 + j + 1)).logged
            (endedEntries (updateTxs s x y w h) (6 + j) a)).streamed m i p c) := by
      intro s' hst he
      obtain ⟨⟨p, b, hp1, hpm, hread, hlast⟩, hw, hpg, hcl⟩ := hst
      obtain ⟨b1, b2, b3, b4, b5, b6, b7⟩ := window_range hl ha
      have e2 : (BitVec.ofNat 8 (endColOf x w)).toNat = endColOf x w := by simp; omega
      have e4 : (BitVec.ofNat 8 (endPageOf y h)).toNat = endPageOf y h := by simp; omega
      have htr : s'.trace = s.trace ++ (okEntries (windowTxs s x y w h) ++
          endedEntries (chunkTxs s (streamBytes s x y w h)) j a) := by
        have := congrArg State.trace he
        simpa [State.streamed, State.logged, State.spent, State.windowed] using this
      have hlast2 : s'.trace.getLast? = some ⟨(chunkTxs s (streamBytes s x y w h))[j], a⟩ := by
        rw [htr, List.getLast?_append, List.getLast?_append, endedEntries_getLast a hj]
        rfl
      rw [hlast] at hlast2
      have hpc : p = chunk s.cfg.mts (streamBytes s x y w h) j := by
        have h3 := congrArg TraceEntry.tx (Option.some.inj hlast2)
        simp only [chunkTxs, chunks, bufTx, List.getElem_map, List.getElem_range, Transaction.buf.injEq] at h3
        exact h3.2.2.2
      rw [show 6 + j - 6 = j by omega, ← hpc]
      refine ⟨s'.scratch, s'.sidx, s'.page, s'.col, hw, fun h => by omega, fun _ => ⟨hread, ?_, ?_, ?_, ?_⟩, ?_⟩
      · exact (memReadRange_length hread).symm
      · rw [← memReadRange_length hread]; exact hpm
      · rw [← e4]; exact hpg
      · rw [← e2]; exact hcl
      · refine eq_streamed ?_
        rw [he, show 6 + j + 1 = 6 + (j + 1) by omega, ← spent_spent (s.windowed x y w h) 6 (j + 1), updateTxs,
          endedEntries_append _ _ _ _ (by rw [h6]; omega), h6, show 6 + j - 6 = j by omega]
        simp [State.logged, State.streamed, State.spent]
    revert hcore hpost
    generalize stream _ = f
    intro hcore hpost
    cases f with
    | run s' => cases a <;> simp_all [Flow.core]
    | raised e s' =>
      cases a with
      | ok => exact absurd rfl hne
      | err =>
        simp only [Flow.core, if_true, Flow.raised.injEq] at hcore
        obtain ⟨m, i, p, c, q1, q2, q3, q4⟩ := hmain s' hpost hcore.2
        refine ⟨m, i, p, c, q1, q2, q3, ?_⟩
        rw [if_pos rfl, ← q4, hcore.1]
      | never => simp [Flow.core] at hcore
    | hung s' =>
      cases a with
      | ok => exact absurd rfl hne
      | err => simp [Flow.core] at hcore
      | never =>
        simp only [Flow.core, reduceCtorEq, if_false, Flow.hung.injEq] at hcore
        obtain ⟨m, i, p, c, q1, q2, q3, q4⟩ := hmain s' hpost hcore
        refine ⟨m, i, p, c, q1, q2, q3, ?_⟩
        rw [if_neg (by simp), ← q4]
    | fault e => exact hpost.elim

end Sys2Proof.Machine
end

