-- ==== Sys2Proof/Laws/Frame.lean ====
section
/-! SUPPORT. What a command can do, said once: the inversion of `exec`, of the loop of CONSTRUCT and of the update
flow in any state, with the entries they add to the trace. -/

namespace Sys2Proof.Machine

/-- A state with everything forgotten that the bus and a streaming phase work on. -/
def State.rest (s : State) : State :=
  { s with scratch := [], sidx := 0, page := 0, col := 0, answers := [], draws := 0, trace := [] }

/-- `s'` is `s0` after the bus and a streaming phase worked: `es` joined the trace, well shaped (rules R68, R69, R135). -/
structure Sent (s0 : State) (es : List TraceEntry) (s' : State) : Prop where
  rest : s'.rest = s0.rest
  trace : s'.trace = s0.trace ++ es
  shaped : ∀ e ∈ es, entryWellShaped s0.cfg s0.devAddr e = true

/-- All of the entries added were answered `ok`. -/
def SentOk (s0 s' : State) : Prop := ∃ es, Sent s0 es s' ∧ ∀ e ∈ es, e.answer = .ok

/-- All of the entries added but the last were answered `ok`, and the last was not: its answer is `a`. -/
def SentEnded (a : Answer) (s0 s' : State) : Prop :=
  ∃ es t, Sent s0 (es ++ [⟨t, a⟩]) s' ∧ ∀ e ∈ es, e.answer = .ok

theorem Sent.cfg {s0 s' : State} {es : List TraceEntry} (h : Sent s0 es s') : s'.cfg = s0.cfg := by
  have := congrArg State.cfg h.rest
  simpa [State.rest] using this

theorem Sent.devAddr {s0 s' : State} {es : List TraceEntry} (h : Sent s0 es s') : s'.devAddr = s0.devAddr := by
  have := congrArg State.devAddr h.rest
  simpa [State.rest] using this

/-- What a flow may end in; a fault says nothing here. -/
def Flow.Sat (f : Flow) (R E H : State → Prop) : Prop :=
  match f with
  | .run s => R s
  | .raised e s => e = .transportError ∧ E s
  | .hung s => H s
  | .fault _ => True

theorem Flow.Sat.andThen {f : Flow} {R R' E H : State → Prop} {k : State → Flow} (hf : f.Sat R E H)
    (hk : ∀ s, R s → (k s).Sat R' E H) : (f.andThen k).Sat R' E H := by
  cases f with
  | run s => exact hk s hf
  | raised e s => exact hf
  | hung s => exact hf
  | fault x => trivial

/-- One well-shaped transaction. -/
theorem transact_sat {s0 s : State} (h : SentOk s0 s) {t : Transaction}
    (ht : ∀ a, entryWellShaped s0.cfg s0.devAddr ⟨t, a⟩ = true) :
    (transact t s).Sat (fun s' => SentOk s0 s' ∧ s'.sidx = s.sidx) (SentEnded .err s0) (SentEnded .never s0) := by
  obtain ⟨es, ⟨hr, htr, hsh⟩, hok⟩ := h
  have key : ∀ a, Sent s0 (es ++ [⟨t, a⟩]) ((s.spent 1).logged [⟨t, a⟩]) := by
    intro a
    refine ⟨hr, by simp [htr], ?_⟩
    intro e he
    rcases List.mem_append.mp he with he | he
    · exact hsh e he
    · rw [List.mem_singleton] at he
      subst he
      exact ht a
  rw [transact_eq]
  cases s.answerAt 0
  · refine ⟨⟨es ++ [⟨t, .ok⟩], key _, ?_⟩, rfl⟩
    intro e he
    rcases List.mem_append.mp he with he | he
    · exact hok e he
    · rw [List.mem_singleton] at he
      subst he
      rfl
  · exact ⟨rfl, es, t, key _, hok⟩
  · exact ⟨es, t, key _, hok⟩

theorem cmdByte_sat {s0 s : State} (v : Byte) (h : SentOk s0 s) :
    (cmdByte v s).Sat (SentOk s0) (SentEnded .err s0) (SentEnded .never s0) := by
  obtain ⟨es, hs, hok⟩ := h
  have ht : ∀ a, entryWellShaped s0.cfg s0.devAddr ⟨commandByteTx s v, a⟩ = true := by
    intro a
    simp [entryWellShaped, commandByteTx, payloadBounded, hs.cfg, hs.devAddr]
  have := (transact_sat ⟨es, hs, hok⟩ ht).andThen (k := .run) (R' := SentOk s0) fun s' hs' => hs'.1
  simpa [cmdByte] using this

theorem setWindow_sat {s0 s : State} (h : SentOk s0 s) :
    (setWindow s).Sat (SentOk s0) (SentEnded .err s0) (SentEnded .never s0) := by
  unfold setWindow
  refine (cmdByte_sat _ h).andThen fun s1 h1 => ?_
  refine (cmdByte_sat _ h1).andThen fun s2 h2 => ?_
  refine (cmdByte_sat _ h2).andThen fun s3 h3 => ?_
  refine (cmdByte_sat _ h3).andThen fun s4 h4 => ?_
  refine (cmdByte_sat _ h4).andThen fun s5 h5 => ?_
  exact cmdByte_sat _ h5

theorem SentOk.congr {s0 s s' : State} (h : SentOk s0 s) (hr : s'.rest = s.rest) (ht : s'.trace = s.trace) :
    SentOk s0 s' := by
  obtain ⟨es, ⟨h1, h2, h3⟩, hok⟩ := h
  exact ⟨es, ⟨hr.trans h1, ht.trans h2, h3⟩, hok⟩

theorem flush_sat {s0 s : State} (h : SentOk s0 s) (h1 : 1 ≤ s.sidx) (hm : s.sidx ≤ s0.cfg.mts)
    (hl : s0.cfg.mts ≤ 255) :
    (flush s).Sat (fun s' => SentOk s0 s' ∧ s'.sidx = 0) (SentEnded .err s0) (SentEnded .never s0) := by
  unfold flush
  cases hb : memReadRange s.scratch 0 s.sidx with
  | none => trivial
  | some bs =>
    have hlen := memReadRange_length hb
    obtain ⟨es, hs, hok⟩ := h
    have ht : ∀ a, entryWellShaped s0.cfg s0.devAddr ⟨dataBufTx s bs, a⟩ = true := by
      intro a
      simp only [entryWellShaped, dataBufTx, payloadBounded, hs.cfg, hs.devAddr, hlen, beq_self_eq_true, Bool.true_and,
        BitVec.toNat_ofNat, Bool.and_eq_true, decide_eq_true_eq]
      omega
    refine (transact_sat ⟨es, hs, hok⟩ ht).andThen fun s' hs' => ?_
    exact ⟨hs'.1.congr rfl rfl, rfl⟩

theorem append_sat {s0 s : State} (v : Byte) (h : SentOk s0 s) (hm : s.sidx < s0.cfg.mts) (hl : s0.cfg.mts ≤ 255) :
    (append v s).Sat (fun s' => SentOk s0 s' ∧ s'.sidx < s0.cfg.mts) (SentEnded .err s0) (SentEnded .never s0) := by
  have hc : s.cfg = s0.cfg := by
    obtain ⟨es, hs, -⟩ := h
    exact hs.cfg
  have h' : SentOk s0 { s with scratch := memWrite s.scratch s.sidx v, sidx := s.sidx + 1 } := h.congr rfl rfl
  by_cases hfull : s.sidx + 1 = s0.cfg.mts
  · have ha : append v s = flush { s with scratch := memWrite s.scratch s.sidx v, sidx := s.sidx + 1 } :=
      if_pos (by simp only [hc, hfull])
    rw [ha]
    have hf := (flush_sat h' (by simp) (by simp; omega) hl).andThen (k := .run)
      (R' := fun s' => SentOk s0 s' ∧ s'.sidx < s0.cfg.mts) fun s' hs' => ⟨hs'.1, by rw [hs'.2]; omega⟩
    simpa using hf
  · have ha : append v s = .run { s with scratch := memWrite s.scratch s.sidx v, sidx := s.sidx + 1 } :=
      if_neg (by simp only [hc]; exact hfull)
    rw [ha]
    exact ⟨h', by simp; omega⟩

theorem streamCols_sat {s0 : State} (hl : s0.cfg.mts ≤ 255) (n : Nat) {s : State} (h : SentOk s0 s)
    (hm : s.sidx < s0.cfg.mts) :
    (streamCols n s).Sat (fun s' => SentOk s0 s' ∧ s'.sidx < s0.cfg.mts) (SentEnded .err s0)
      (SentEnded .never s0) := by
  induction n generalizing s with
  | zero => exact ⟨h, hm⟩
  | succ n ih =>
    unfold streamCols
    cases memRead s.fb (byteIndex s.cfg s.page s.col) with
    | none => trivial
    | some v =>
      refine (append_sat v h hm hl).andThen fun s' hs' => ?_
      exact ih (hs'.1.congr rfl rfl) hs'.2

theorem streamPages_sat {s0 : State} (hl : s0.cfg.mts ≤ 255) (n : Nat) {s : State} (h : SentOk s0 s)
    (hm : s.sidx < s0.cfg.mts) :
    (streamPages n s).Sat (fun s' => SentOk s0 s' ∧ s'.sidx < s0.cfg.mts) (SentEnded .err s0)
      (SentEnded .never s0) := by
  induction n generalizing s with
  | zero => exact ⟨h, hm⟩
  | succ n ih =>
    unfold streamPages
    have hc := streamCols_sat hl (s.endCol.toNat + 1 - s.startCol.toNat)
      (s := { s with col := s.startCol.toNat }) (h.congr rfl rfl) hm
    refine hc.andThen fun s' hs' => ?_
    exact ih (s := { s' with page := s'.page + 1 }) (hs'.1.congr rfl rfl) hs'.2

theorem stream_sat {s0 s : State} (h1 : 1 ≤ s0.cfg.mts) (hl : s0.cfg.mts ≤ 255) (h : SentOk s0 s) :
    (stream s).Sat (SentOk s0) (SentEnded .err s0) (SentEnded .never s0) := by
  unfold stream
  have hp := streamPages_sat hl (s.endPage.toNat + 1 - s.startPage.toNat)
    (s := { s with sidx := 0, page := s.startPage.toNat }) (h.congr rfl rfl) (show 0 < s0.cfg.mts by omega)
  refine hp.andThen fun s' hs' => ?_
  unfold flushRest
  split
  · have hf := (flush_sat hs'.1 (by omega) (by omega) hl).andThen (k := .run) (R' := SentOk s0) fun s' hs' => hs'.1
    simpa using hf
  · exact hs'.1

/-- What an update that was accepted can end in, in any state (rules R116, R154). -/
theorem updateRectangle_next {s t : State} (hl : s.cfg.legal = true) (h : updateRectangle s = .next t) :
    (rejects s.cfg s.opx.toInt s.opy.toInt s.opw.toInt s.oph.toInt = true ∧ t = raise .invalidArgument s) ∨
    (rejects s.cfg s.opx.toInt s.opy.toInt s.opw.toInt s.oph.toInt = false ∧
      ((∃ s', SentOk (computeWindow s) s' ∧ t = respond .ok 0 s') ∨
       (∃ s', SentEnded .err (computeWindow s) s' ∧ t = raise .transportError s') ∨
       SentEnded .never (computeWindow s) t)) := by
  unfold updateRectangle at h
  obtain ⟨-, -, -, -, -, hm, hm'⟩ := (legal_iff s.cfg).mp hl
  split at h
  · rename_i hr
    exact .inl ⟨hr, (Host.Outcome.next.inj h).symm⟩
  · rename_i hr
    refine .inr ⟨by simpa using hr, ?_⟩
    have h0 : SentOk (computeWindow s) (computeWindow s) := ⟨[], ⟨rfl, by simp, by simp⟩, by simp⟩
    have hsat := (setWindow_sat h0).andThen fun s' hs' => stream_sat (s0 := computeWindow s) hm hm' hs'
    revert h hsat
    generalize (setWindow (computeWindow s)).andThen stream = f
    intro h hsat
    cases f with
    | run s' => exact .inl ⟨s', hsat, (Host.Outcome.next.inj h).symm⟩
    | raised e s' =>
      obtain ⟨he, hE⟩ := hsat
      subst he
      exact .inr (.inl ⟨s', hE, (Host.Outcome.next.inj h).symm⟩)
    | hung s' =>
      have := Host.Outcome.next.inj h
      subst this
      exact .inr (.inr hsat)
    | fault x => cases h

/-- What the loop of CONSTRUCT can end in (rules R100, R106). -/
theorem sendInit_cases (s : State) :
    let s1 := beginConstruct s
    let txs := s.cfg.initSeq.map (commandByteTx s1)
    (s.AllOk s.cfg.initLen ∧ sendInit s.cfg.initSeq s1 =
      respond .ok 0 { (s1.spent s.cfg.initLen).logged (okEntries txs) with mode := .ready, seqIdx := s.cfg.initLen }) ∨
    (∃ k, k < s.cfg.initLen ∧ s.AllOk k ∧ s.answerAt k = .err ∧ sendInit s.cfg.initSeq s1 =
      raise .transportError
        { (s1.spent (k + 1)).logged (endedEntries txs k .err) with mode := .failed, seqIdx := k }) ∨
    (∃ k, k < s.cfg.initLen ∧ s.AllOk k ∧ s.answerAt k = .never ∧ sendInit s.cfg.initSeq s1 =
      { (s1.spent (k + 1)).logged (endedEntries txs k .never) with seqIdx := k }) := by
  intro s1 txs
  rcases answers_cases s s.cfg.initLen with hok | ⟨k, a, hk, hok, ha, hne⟩
  · refine .inl ⟨hok, ?_⟩
    rw [sendInit_allOk (s := s1) hok]
    simp [txs, Config.initLen, s1, beginConstruct]
  · have e := sendInit_ended (s := s1) hk hok ha hne
    cases a with
    | ok => exact absurd rfl hne
    | err =>
      refine .inr (.inl ⟨k, hk, hok, ha, ?_⟩)
      rw [e, if_pos rfl]
      simp [txs, s1, beginConstruct]
    | never =>
      refine .inr (.inr ⟨k, hk, hok, ha, ?_⟩)
      rw [e, if_neg (by simp)]
      simp [txs, s1, beginConstruct]

/-- The gate (rule R150): a command that is not callable ends with BAD_STATE; one that is runs its body. -/
theorem gated_eq (i : Instr) (body : State → Host.Outcome State Fault Refusal) (s : State) :
    gated i body s = if callable i s.mode then body (accept i.operands s)
      else .next (s.completed i.operands .badState 0) := rfl

theorem finishDraw_next {r : Except Fault Memory} {s t : State} (h : finishDraw r s = .next t) :
    ∃ fb, r = .ok fb ∧ t = respond .ok 0 { s with fb := fb } := by
  cases r with
  | ok fb => exact ⟨fb, rfl, (Host.Outcome.next.inj h).symm⟩
  | error f => cases h

/-- What a command can do when it gives a next state: stopped by the gate, a drawing command, a query, CONSTRUCT, or an
update. -/
theorem exec_next {i : Instr} {s t : State} (h : exec i s = .next t) :
    (callable i s.mode = false ∧ t = s.completed i.operands .badState 0) ∨
    (callable i s.mode = true ∧
      ((∃ o fb, (i = .clear o ∨ i = .setPixel o ∨ i = .clearRect o) ∧ t = { s.completed o .ok 0 with fb := fb }) ∨
       (∃ o d, (i = .getWidth o ∨ i = .getHeight o ∨ i = .getPixel o) ∧ t = s.completed o .ok d) ∨
       (∃ o, i = .construct o ∧ t = sendInit s.cfg.initSeq (beginConstruct (accept o s))) ∨
       (∃ o, i = .updateRect o ∧ updateRectangle (accept o s) = .next t) ∨
       (∃ o, i = .updateFull o ∧ updateRectangle (loadWholeSurface (accept o s)) = .next t))) := by
  cases hc : callable i s.mode with
  | false =>
    refine .inl ⟨rfl, ?_⟩
    cases i <;>
      simp only [exec, execConstruct, execClear, execGetWidth, execGetHeight, execSetPixel, execClearRect,
        execUpdateFull, execUpdateRect, execGetPixel, gated_eq, hc, Bool.false_eq_true, if_false,
        Host.Outcome.next.injEq] at h <;> exact h.symm
  | true =>
    refine .inr ⟨rfl, ?_⟩
    cases i with
    | construct o =>
      simp only [exec, execConstruct, gated_eq, hc, if_true, Host.Outcome.next.injEq] at h
      exact .inr (.inr (.inl ⟨o, rfl, h.symm⟩))
    | clear o =>
      simp only [exec, execClear, gated_eq, hc, if_true, Host.Outcome.next.injEq] at h
      exact .inl ⟨o, _, .inl rfl, h.symm⟩
    | getWidth o =>
      simp only [exec, execGetWidth, gated_eq, hc, if_true, Host.Outcome.next.injEq] at h
      exact .inr (.inl ⟨o, _, .inl rfl, h.symm⟩)
    | getHeight o =>
      simp only [exec, execGetHeight, gated_eq, hc, if_true, Host.Outcome.next.injEq] at h
      exact .inr (.inl ⟨o, _, .inr (.inl rfl), h.symm⟩)
    | setPixel o =>
      simp only [exec, execSetPixel, gated_eq, hc, if_true] at h
      obtain ⟨fb, -, ht⟩ := finishDraw_next h
      exact .inl ⟨o, fb, .inr (.inl rfl), ht⟩
    | clearRect o =>
      simp only [exec, execClearRect, gated_eq, hc, if_true] at h
      obtain ⟨fb, -, ht⟩ := finishDraw_next h
      exact .inl ⟨o, fb, .inr (.inr rfl), ht⟩
    | updateFull o =>
      simp only [exec, execUpdateFull, gated_eq, hc, if_true] at h
      exact .inr (.inr (.inr (.inr ⟨o, rfl, h⟩)))
    | updateRect o =>
      simp only [exec, execUpdateRect, gated_eq, hc, if_true] at h
      exact .inr (.inr (.inr (.inl ⟨o, rfl, h⟩)))
    | getPixel o =>
      simp only [exec, execGetPixel, gated_eq, hc, if_true, readPixel] at h
      split at h
      · split at h
        · exact .inr (.inl ⟨o, _, .inr (.inr rfl), (Host.Outcome.next.inj h).symm⟩)
        · cases h
      · exact .inr (.inl ⟨o, _, .inr (.inr rfl), (Host.Outcome.next.inj h).symm⟩)

/-- What an accepted word can do when it gives a next state: run its command, or be answered as illegal. -/
theorem runWord_next {w : CommandWord} {s t : State} (h : runWord w s = .next t) :
    (∃ i, decode w = .ok i ∧ exec i s = .next t) ∨
    (∃ e, decode w = .error e ∧ t = s.completed (fieldsOf w) .illegalCommand 0) := by
  unfold runWord at h
  cases hd : decode w with
  | ok i =>
    rw [hd] at h
    exact .inl ⟨i, rfl, h⟩
  | error e =>
    rw [hd] at h
    exact .inr ⟨e, rfl, (Host.Outcome.next.inj h).symm⟩

/-- What a word cut short by reset can do when it gives a next state. -/
theorem runInterrupted_next {w : CommandWord} {k : Nat} {s u : State} (h : runInterrupted w k s = .next u) :
    ∃ t, runWord w s = .next t ∧ u = abandon k s t := by
  unfold runInterrupted at h
  cases hr : runWord w s with
  | next t =>
    rw [hr] at h
    exact ⟨t, rfl, (Host.Outcome.next.inj h).symm⟩
  | fault f => rw [hr] at h; cases h
  | refused r => rw [hr] at h; cases h

/-- What a step can do when it gives a next state: wait, reset, run a word, or cut one short. -/
theorem step_next {s t : State} (h : step s = .next t) :
    s.cfg.legal = true ∧
    (t = s ∨
     (∃ rest, s.TakesReset ∧ t = resetBlock { s with inputs := rest }) ∨
     (∃ w rest, s.accepts w rest ∧ runWord w { s with inputs := rest } = .next t) ∨
     (∃ w k rest u, s.busy = false ∧ s.inputs = .resetDuring w k :: rest ∧
       runWord w { s with inputs := rest } = .next u ∧ t = abandon k { s with inputs := rest } u)) := by
  unfold step at h
  split at h
  · rename_i hl
    refine ⟨hl, ?_⟩
    rcases fetch_cases s with ⟨hf, -⟩ | ⟨rest, hi, hf⟩ | ⟨w, rest, hi, hb, hf⟩ | ⟨w, k, rest, hi, hb, hf⟩
    · rw [hf] at h
      exact .inl (Host.Outcome.next.inj h).symm
    · rw [hf] at h
      exact .inr (.inl ⟨rest, hi, (Host.Outcome.next.inj h).symm⟩)
    · rw [hf] at h
      exact .inr (.inr (.inl ⟨w, rest, ⟨hl, hb, hi⟩, h⟩))
    · rw [hf] at h
      obtain ⟨u, hu, ht⟩ := runInterrupted_next h
      exact .inr (.inr (.inr ⟨w, k, rest, u, hb, hi, hu, ht⟩))
  · cases h

/-- An accepted word is run, decoded (rules R61, R64). -/
theorem step_accepted {s : State} {w : CommandWord} {rest : List Input} (h : s.accepts w rest) :
    step s = runWord w { s with inputs := rest } := by
  obtain ⟨h1, h2, h3⟩ := h
  simp [step, fetch, h1, h2, h3]

/-- A word cut short by reset is run and abandoned (rule R165). -/
theorem step_interrupted {s t : State} {w : CommandWord} {k : Nat} {rest : List Input} (hl : s.cfg.legal = true)
    (hb : s.busy = false) (hi : s.inputs = .resetDuring w k :: rest)
    (h : runWord w { s with inputs := rest } = .next t) :
    step s = .next (abandon k { s with inputs := rest } t) := by
  have hf : fetch s = .interrupted w k { s with inputs := rest } := by simp [fetch, hb, hi]
  unfold step
  rw [if_pos hl, hf]
  simp only [runInterrupted, h]

/-! ## A callable command runs its body (rule R150) -/

theorem execConstruct_eq {s : State} {o : Operands} (hm : s.mode = .uninit) :
    exec (.construct o) s = .next (sendInit s.cfg.initSeq (beginConstruct (accept o s))) := by
  simp only [exec, execConstruct, gated_eq]
  rw [if_pos (by simp [callable, hm])]
  rfl

theorem execSetPixel_eq {s : State} {o : Operands} (hm : s.mode = .ready) :
    exec (.setPixel o) s = finishDraw (drawPixel s.cfg o.x.toInt o.y.toInt o.on s.fb) (accept o s) := by
  simp only [exec, execSetPixel, gated_eq]
  rw [if_pos (by simp [callable, hm])]
  rfl

theorem execClearRect_eq {s : State} {o : Operands} (hm : s.mode = .ready) :
    exec (.clearRect o) s =
      finishDraw (drawRect s.cfg o.x.toInt o.y.toInt o.w.toInt o.h.toInt o.on s.fb) (accept o s) := by
  simp only [exec, execClearRect, gated_eq]
  rw [if_pos (by simp [callable, hm])]
  rfl

theorem execUpdateRect_eq {s : State} {o : Operands} (hm : s.mode = .ready) :
    exec (.updateRect o) s = updateRectangle (accept o s) := by
  simp only [exec, execUpdateRect, gated_eq]
  rw [if_pos (by simp [callable, hm])]
  rfl

theorem execUpdateFull_eq {s : State} {o : Operands} (hm : s.mode = .ready) :
    exec (.updateFull o) s = updateRectangle (loadWholeSurface (accept o s)) := by
  simp only [exec, execUpdateFull, gated_eq]
  rw [if_pos (by simp [callable, hm])]
  rfl

/-! ## What an update keeps -/

/-- What the bus and a streaming phase do not work on. -/
theorem Sent.keeps {s0 s : State} {es : List TraceEntry} (h : Sent s0 es s) :
    s.mode = s0.mode ∧ s.devAddr = s0.devAddr ∧ s.fb = s0.fb ∧ s.busy = s0.busy ∧ s.respPending = s0.respPending ∧
      s.responses = s0.responses ∧ s.opx = s0.opx ∧ s.opy = s0.opy ∧ s.opw = s0.opw ∧ s.oph = s0.oph ∧
      s.opon = s0.opon ∧ s.opovr = s0.opovr := by
  have hr := h.rest
  simp only [State.rest, State.mk.injEq] at hr
  simp_all

/-- How a command that ran has answered: once, or not at all while a transaction waits for its answer (rules R10, R66). -/
def Answered (s t : State) : Prop :=
  (t.busy = false ∧ t.respPending = true ∧ t.responses = s.responses ++ [⟨t.respStatus, t.respData⟩] ∧
    (t.respStatus ≠ .ok → t.respData = 0)) ∨
  (t.busy = true ∧ t.respPending = false ∧ t.responses = s.responses ∧
    t.trace.getLast?.map TraceEntry.answer = some .never)

/-- Everything an update can do in any state, accepted or not, whatever the answers (rules R116, R117, R154). -/
theorem updateRectangle_frame {s t : State} (hl : s.cfg.legal = true) (hb : s.busy = true)
    (hp : s.respPending = false) (h : updateRectangle s = .next t) :
    t.mode = s.mode ∧ t.devAddr = s.devAddr ∧ t.fb = s.fb ∧ t.opx = s.opx ∧ t.opy = s.opy ∧ t.opw = s.opw ∧
      t.oph = s.oph ∧ t.opon = s.opon ∧ t.opovr = s.opovr ∧ Answered s t ∧
      ∃ es, t.trace = s.trace ++ es ∧ (∀ e ∈ es, entryWellShaped s.cfg s.devAddr e = true) ∧
        ∀ e ∈ es.dropLast, e.answer = .ok := by
  rcases updateRectangle_next hl h with
    ⟨_, rfl⟩ | ⟨_, ⟨s', ⟨es, h', hok⟩, rfl⟩ | ⟨s', ⟨es, u, h', hok⟩, rfl⟩ | ⟨es, u, h', hok⟩⟩
  · exact ⟨rfl, rfl, rfl, rfl, rfl, rfl, rfl, rfl, rfl, .inl ⟨rfl, rfl, rfl, fun _ => rfl⟩,
      [], by simp [raise], by simp, by simp⟩
  · obtain ⟨r1, r2, r3, r4, r5, r6, r7, r8, r9, r10, r11, r12⟩ := h'.keeps
    refine ⟨r1, r2, r3, r7, r8, r9, r10, r11, r12, .inl ⟨rfl, rfl, ?_, fun _ => rfl⟩,
      es, h'.trace, h'.shaped, fun e he => hok e (List.dropLast_subset _ he)⟩
    simp only [respond, r6]
    rfl
  · obtain ⟨r1, r2, r3, r4, r5, r6, r7, r8, r9, r10, r11, r12⟩ := h'.keeps
    refine ⟨r1, r2, r3, r7, r8, r9, r10, r11, r12, .inl ⟨rfl, rfl, ?_, fun _ => rfl⟩,
      _, h'.trace, h'.shaped, fun e he => hok e (by simpa using he)⟩
    simp only [raise, respond, r6]
    rfl
  · obtain ⟨r1, r2, r3, r4, r5, r6, r7, r8, r9, r10, r11, r12⟩ := h'.keeps
    refine ⟨r1, r2, r3, r7, r8, r9, r10, r11, r12, .inr ⟨r4.trans hb, r5.trans hp, r6, ?_⟩,
      _, h'.trace, h'.shaped, fun e he => hok e (by simpa using he)⟩
    rw [h'.trace]
    simp

/-! ## What CONSTRUCT keeps -/

theorem endedEntries_shaped {s : State} (vs : List Byte) {k : Nat} (a : Answer) (hk : k < vs.length) :
    (∀ e ∈ endedEntries (vs.map (commandByteTx s)) k a, entryWellShaped s.cfg s.devAddr e = true) ∧
    ∀ e ∈ (endedEntries (vs.map (commandByteTx s)) k a).dropLast, e.answer = .ok := by
  have hsh : ∀ v a, entryWellShaped s.cfg s.devAddr ⟨commandByteTx s v, a⟩ = true := by
    intro v a
    simp [entryWellShaped, commandByteTx, payloadBounded]
  have hk' : k < (vs.map (commandByteTx s)).length := by simpa using hk
  constructor
  · intro e he
    simp only [endedEntries, okEntries, List.mem_append, List.mem_map] at he
    rcases he with ⟨u, hu, rfl⟩ | ⟨u, hu, rfl⟩
    · obtain ⟨v, -, rfl⟩ := List.mem_map.mp (List.mem_of_mem_take hu)
      exact hsh _ _
    · rw [Option.mem_toList, List.head?_drop] at hu
      obtain ⟨v, -, rfl⟩ := List.mem_map.mp (List.mem_of_getElem? hu)
      exact hsh _ _
  · intro e he
    simp only [endedEntries] at he
    rw [List.head?_drop, List.getElem?_eq_getElem hk'] at he
    simp only [Option.toList, List.map_cons, List.map_nil, List.dropLast_concat, okEntries, List.mem_map] at he
    obtain ⟨u, -, rfl⟩ := he
    rfl

/-- Everything the body of CONSTRUCT can do, whatever the answers (rules R100, R106, R151). -/
theorem construct_frame (s : State) (o : Operands) (t : State)
    (ht : t = sendInit s.cfg.initSeq (beginConstruct (accept o s))) :
    ((t.mode = .ready ∧ t.busy = false ∧ t.respStatus = .ok) ∨
      (t.mode = .failed ∧ t.busy = false ∧ t.respStatus = .transportError) ∨
      (t.mode = .initializing ∧ t.busy = true ∧ t.responses = s.responses)) ∧
    t.devAddr = (beginConstruct (accept o s)).devAddr ∧ t.fb = memZeros s.cfg.fbBytes ∧
    (t.opx = o.x ∧ t.opy = o.y ∧ t.opw = o.w ∧ t.oph = o.h ∧ t.opon = o.on ∧ t.opovr = o.ovr) ∧ Answered s t ∧
    (t.cfg = s.cfg ∧ t.scratch = s.scratch ∧ t.sidx = s.sidx ∧ t.page = s.page ∧ t.col = s.col ∧
      t.seqIdx ≤ s.cfg.initLen) ∧
    ∃ es, t.trace = s.trace ++ es ∧ (∀ e ∈ es, entryWellShaped s.cfg t.devAddr e = true) ∧
      ∀ e ∈ es.dropLast, e.answer = .ok := by
  have hlast : ∀ (k : Nat) (a : Answer), k < s.cfg.initLen →
      (s.trace ++ endedEntries (s.cfg.initSeq.map (commandByteTx (beginConstruct (accept o s)))) k a).getLast?.map
        TraceEntry.answer = some a := by
    intro k a hk
    rw [List.getLast?_append, endedEntries_getLast a (by simpa [Config.initLen] using hk)]
    rfl
  rcases sendInit_cases (accept o s) with ⟨hok, h⟩ | ⟨k, hk, _, h2, h⟩ | ⟨k, hk, _, h2, h⟩
  · rw [ht.trans h]
    refine ⟨.inl ⟨rfl, rfl, rfl⟩, rfl, rfl, ⟨rfl, rfl, rfl, rfl, rfl, rfl⟩, .inl ⟨rfl, rfl, rfl, fun _ => rfl⟩,
      ⟨rfl, rfl, rfl, rfl, rfl, Nat.le_refl _⟩, _, rfl, ?_, ?_⟩
    · intro e he
      simp only [okEntries, List.mem_map] at he
      obtain ⟨u, ⟨v, -, rfl⟩, rfl⟩ := he
      simp [entryWellShaped, commandByteTx, payloadBounded, beginConstruct, State.spent, State.logged, respond]
    · intro e he
      have he' := List.dropLast_subset _ he
      simp only [okEntries, List.mem_map] at he'
      obtain ⟨u, -, rfl⟩ := he'
      rfl
  · rw [ht.trans h]
    obtain ⟨e1, e2⟩ := endedEntries_shaped (s := beginConstruct (accept o s)) s.cfg.initSeq (k := k) .err hk
    exact ⟨.inr (.inl ⟨rfl, rfl, rfl⟩), rfl, rfl, ⟨rfl, rfl, rfl, rfl, rfl, rfl⟩, .inl ⟨rfl, rfl, rfl, fun _ => rfl⟩,
      ⟨rfl, rfl, rfl, rfl, rfl, Nat.le_of_lt hk⟩, _, rfl, e1, e2⟩
  · rw [ht.trans h]
    obtain ⟨e1, e2⟩ := endedEntries_shaped (s := beginConstruct (accept o s)) s.cfg.initSeq (k := k) .never hk
    exact ⟨.inr (.inr ⟨rfl, rfl, rfl⟩), rfl, rfl, ⟨rfl, rfl, rfl, rfl, rfl, rfl⟩,
      .inr ⟨rfl, rfl, rfl, hlast k .never hk⟩, ⟨rfl, rfl, rfl, rfl, rfl, Nat.le_of_lt hk⟩, _, rfl, e1, e2⟩

/-! ## What every command keeps, and what it adds to the trace -/

theorem Sent.inputs {s0 s : State} {es : List TraceEntry} (h : Sent s0 es s) : s.inputs = s0.inputs := by
  have := congrArg State.inputs h.rest
  simpa [State.rest] using this

theorem updateRectangle_keeps {s t : State} (hl : s.cfg.legal = true) (h : updateRectangle s = .next t) :
    t.cfg = s.cfg ∧ t.inputs = s.inputs := by
  rcases updateRectangle_next hl h with
    ⟨-, rfl⟩ | ⟨-, ⟨s', ⟨es, h', -⟩, rfl⟩ | ⟨s', ⟨es, u, h', -⟩, rfl⟩ | ⟨es, u, h', -⟩⟩
  · exact ⟨rfl, rfl⟩
  · exact ⟨h'.cfg, h'.inputs⟩
  · exact ⟨h'.cfg, h'.inputs⟩
  · exact ⟨h'.cfg, h'.inputs⟩

/-- No command writes the configuration or the host's side of the port (rules R29, R64). -/
theorem exec_keeps {i : Instr} {s t : State} (hl : s.cfg.legal = true) (h : exec i s = .next t) :
    t.cfg = s.cfg ∧ t.inputs = s.inputs := by
  rcases exec_next h with
    ⟨-, rfl⟩ | ⟨-, ⟨o, fb, -, rfl⟩ | ⟨o, d, -, rfl⟩ | ⟨o, -, rfl⟩ | ⟨o, -, h⟩ | ⟨o, -, h⟩⟩
  · exact ⟨rfl, rfl⟩
  · exact ⟨rfl, rfl⟩
  · exact ⟨rfl, rfl⟩
  · rcases sendInit_cases (accept o s) with ⟨-, e⟩ | ⟨k, -, -, -, e⟩ | ⟨k, -, -, -, e⟩ <;>
      exact ⟨(congrArg State.cfg e).trans rfl, (congrArg State.inputs e).trans rfl⟩
  · exact updateRectangle_keeps (s := accept o s) hl h
  · exact updateRectangle_keeps (s := loadWholeSurface (accept o s)) hl h

/-- What an accepted word adds to the trace (rules R68, R69, R135, R178), with the device address it uses (rule R26). -/
theorem runWord_sends {w : CommandWord} {s t : State} (hl : s.cfg.legal = true) (h : runWord w s = .next t) :
    t.cfg = s.cfg ∧ t.inputs = s.inputs ∧
    (t.devAddr = s.devAddr ∨
      ∃ o, decode w = .ok (.construct o) ∧ s.mode = .uninit ∧ t.devAddr = constructAddr s.cfg o) ∧
    ∃ es, t.trace = s.trace ++ es ∧ (∀ e ∈ es, entryWellShaped s.cfg t.devAddr e = true) ∧
      ∀ e ∈ es.dropLast, e.answer = .ok := by
  have quiet : ∀ u : State, u.trace = s.trace → ∃ es, u.trace = s.trace ++ es ∧
      (∀ e ∈ es, entryWellShaped s.cfg u.devAddr e = true) ∧ ∀ e ∈ es.dropLast, e.answer = .ok :=
    fun u hu => ⟨[], by simp [hu], by simp, by simp⟩
  rcases runWord_next h with ⟨i, hd, hx⟩ | ⟨e, -, rfl⟩
  · obtain ⟨hc, hi⟩ := exec_keeps hl hx
    refine ⟨hc, hi, ?_⟩
    rcases exec_next hx with
      ⟨-, rfl⟩ | ⟨hm, ⟨o, fb, -, rfl⟩ | ⟨o, d, -, rfl⟩ | ⟨o, rfl, ht⟩ | ⟨o, -, hu⟩ | ⟨o, -, hu⟩⟩
    · exact ⟨.inl rfl, quiet _ rfl⟩
    · exact ⟨.inl rfl, quiet _ rfl⟩
    · exact ⟨.inl rfl, quiet _ rfl⟩
    · obtain ⟨-, ha, -, -, -, -, hes⟩ := construct_frame s o t ht
      exact ⟨.inr ⟨o, hd, by simpa [callable] using hm, ha⟩, hes⟩
    · obtain ⟨-, ha, -, -, -, -, -, -, -, -, hes⟩ := updateRectangle_frame (s := accept o s) hl rfl rfl hu
      exact ⟨.inl ha, by rw [ha]; exact hes⟩
    · obtain ⟨-, ha, -, -, -, -, -, -, -, -, hes⟩ :=
        updateRectangle_frame (s := loadWholeSurface (accept o s)) hl rfl rfl hu
      exact ⟨.inl ha, by rw [ha]; exact hes⟩
  · exact ⟨rfl, rfl, .inl rfl, quiet _ rfl⟩

end Sys2Proof.Machine
end

