-- ==== Sys2Proof/Laws/PerInstr.lean ====
section
/-! SUPPORT. Statements about every command as syntax, one lemma per constructor. -/

namespace Sys2Proof.Laws.Encodable

/-- The fields of a command's word are a legal encoding (rule R63). -/
def Statement (i : Instr) : Prop := i.fields.wellFormed = true

theorem construct (o : Operands) : Statement (.construct o) := rfl
theorem clear (o : Operands) : Statement (.clear o) := rfl
theorem getWidth (o : Operands) : Statement (.getWidth o) := rfl
theorem getHeight (o : Operands) : Statement (.getHeight o) := rfl
theorem setPixel (o : Operands) : Statement (.setPixel o) := rfl
theorem clearRect (o : Operands) : Statement (.clearRect o) := rfl
theorem updateFull (o : Operands) : Statement (.updateFull o) := rfl
theorem updateRect (o : Operands) : Statement (.updateRect o) := rfl
theorem getPixel (o : Operands) : Statement (.getPixel o) := rfl

end Sys2Proof.Laws.Encodable
end

