-- ==== Sys2Proof/Tests/Slice0.lean ====
section
/-! SUPPORT. Tests: what is ill formed is refused; words the spec writes out decode as they say;
single steps give the results of the same file; and for every obligation with hypotheses a state and operands that
meet them. Expected values are the spec's (the vector is named) or, in the witnesses, read from its rules by hand. -/

set_option Elab.async false

namespace Sys2Proof.Tests

open Sys2Proof.Machine

/-! ## Ill-formed terms (rules R63, R71) -/

theorem test_wf_opcode_zero : (CommandFields.mk 0x00 0 ⟨0, 0, 0, 0, false, false⟩).opcodeDefined = false := by decide
theorem test_wf_opcode_ten : (CommandFields.mk 0x0A 0 ⟨0, 0, 0, 0, false, false⟩).wellFormed = false := by decide
theorem test_wf_reserved_bits : (CommandFields.mk 0x05 1 ⟨0, 0, 0, 0, false, false⟩).reservedClear = false := by decide
theorem test_wf_coordinate_high : (AsmLine.setPixel 32768 0 1).wellFormed = false := by decide
theorem test_wf_coordinate_low : (AsmLine.getPixel 0 (-32769)).wellFormed = false := by decide
theorem test_wf_address : (AsmLine.constructAt 128).wellFormed = false := by decide
theorem test_wf_on : (AsmLine.clearRect 0 0 1 1 2).wellFormed = false := by decide
theorem test_wf_accepts : (AsmLine.clearRect (-32768) 32767 0 0 1).wellFormed = true := by decide

/-! ## Decoding: words the spec writes out, in 95_test_vectors.md unless another place is named -/

/-- V9 -/
theorem test_decode_construct : decode 0x01000000000000000000 = .ok (.construct ⟨0, 0, 0, 0, false, false⟩) := by
  decide +kernel
/-- V10 -/
theorem test_decode_construct_override :
    decode 0x0102003D000000000000 = .ok (.construct ⟨0x3D, 0, 0, 0, false, true⟩) := by decide +kernel
/-- V12a -/
theorem test_decode_clear : decode 0x02000000000000000000 = .ok (.clear ⟨0, 0, 0, 0, false, false⟩) := by decide +kernel
/-- V12f: unused fields set -/
theorem test_decode_clear_unused :
    decode 0x0203FFFFFFFFFFFFFFFF = .ok (.clear ⟨-1, -1, -1, -1, true, true⟩) := by decide +kernel
/-- V12a -/
theorem test_decode_get_width : decode 0x03000000000000000000 = .ok (.getWidth ⟨0, 0, 0, 0, false, false⟩) := by
  decide +kernel
/-- V12a -/
theorem test_decode_get_height : decode 0x04000000000000000000 = .ok (.getHeight ⟨0, 0, 0, 0, false, false⟩) := by
  decide +kernel
/-- V11 -/
theorem test_decode_set_pixel : decode 0x0501000A000300000000 = .ok (.setPixel ⟨10, 3, 0, 0, true, false⟩) := by
  decide +kernel
/-- V23 -/
theorem test_decode_clear_rect : decode 0x0601FFFEFFFE00040004 = .ok (.clearRect ⟨-2, -2, 4, 4, true, false⟩) := by
  decide +kernel
/-- V12g: junk operands -/
theorem test_decode_update_full :
    decode 0x0700123456789ABCDEF0 = .ok (.updateFull ⟨0x1234, 0x5678, 0x9ABC, 0xDEF0, false, false⟩) := by decide +kernel
/-- V36 -/
theorem test_decode_update_rect : decode 0x080000640000001D0001 = .ok (.updateRect ⟨100, 0, 29, 1, false, false⟩) := by
  decide +kernel
/-- V12b -/
theorem test_decode_get_pixel : decode 0x0900000A000300000000 = .ok (.getPixel ⟨10, 3, 0, 0, false, false⟩) := by
  decide +kernel
/-- V12c -/
theorem test_decode_opcode_zero : decode 0 = .error (.reservedOpcode 0) := by decide +kernel
/-- V12e -/
theorem test_decode_reserved_bit : decode 0x0504000A000300000000 = .error (.reservedBits 1) := by decide +kernel
/-- Rule R60: fewer than ten bytes -/
theorem test_decode_short : decodeBytes [1, 0, 0, 0, 0, 0, 0, 0, 0] = .error .shortWord := by decide
/-- V10, by bytes -/
theorem test_decode_bytes :
    decodeBytes [0x01, 0x02, 0x00, 0x3D, 0, 0, 0, 0, 0, 0, 0xFF] =
      .ok (.construct ⟨0x3D, 0, 0, 0, false, true⟩, [0xFF]) := by decide +kernel
/-- V11, by its number in the opcode table -/
theorem test_decode_table_word :
    decodeTableWord 80 0x0501000A000300000000 = some (.setPixel ⟨10, 3, 0, 0, true, false⟩) := by decide +kernel
/-- Rule R71's example -/
theorem test_assemble_set_pixel : encode (AsmLine.setPixel 10 3 1).assemble = 0x0501000A000300000000 := by decide +kernel
/-- V23, assembled -/
theorem test_assemble_clear_rect :
    encode (AsmLine.clearRect (-2) (-2) 4 4 1).assemble = 0x0601FFFEFFFE00040004 := by decide +kernel
/-- V10, assembled -/
theorem test_assemble_construct : encode (AsmLine.constructAt 0x3D).assemble = 0x0102003D000000000000 := by decide +kernel

/-! ## States for tests -/

/-- What a test looks at in an outcome. -/
def nextOf : Host.Outcome State Fault Refusal → Option State
  | .next s => some s
  | .fault _ => none
  | .refused _ => none

/-- An `FB` of `n` bytes, byte i being `f i`. -/
def fbOf (n : Nat) (f : Nat → Byte) : Memory := (List.range n).map fun i => (i, f i)

/-- The reference hardware in READY with the given `FB` and this word at the command port. -/
def ready (fb : Memory) (w : CommandWord) : State :=
  { State.reset with mode := .ready, fb := fb, inputs := [.command w] }

/-- "Ramp FB" of 95_test_vectors.md. -/
def ramp : Memory := fbOf 1024 fun i => BitVec.ofNat 8 i

/-- The response of a step. -/
def answer (s : State) : Option (Status × BitVec 16) := (nextOf (step s)).map fun t => (t.respStatus, t.respData)

/-- Some bytes of `FB` after a step. -/
def bytesAfter (s : State) (is : List Nat) : Option (List (Option Byte)) :=
  (nextOf (step s)).map fun t => is.map (memRead t.fb)

/-- `B(v)` of 95_test_vectors.md, answered `ok`. -/
def b (v : Byte) : TraceEntry := ⟨.byte 0x3C 0x00 v, .ok⟩

/-! ## Single steps: vectors of 95_test_vectors.md -/

/-- V45 -/
theorem test_step_construct :
    (nextOf (step { State.reset with inputs := [.command 0x01000000000000000000],
                                     answers := List.replicate 25 .ok })).map
      (fun t => (t.mode, t.respStatus, t.trace.length, t.trace.take 3, memRead t.fb 1023)) =
    some (.ready, .ok, 25, [b 0xAE, b 0xD5, b 0x80], some 0) := by decide +kernel
/-- V47 -/
theorem test_step_construct_failed :
    (nextOf (step { State.reset with inputs := [.command 0x01000000000000000000],
                                     answers := [.ok, .ok, .err] })).map
      (fun t => (t.mode, t.respStatus, t.trace)) =
    some (.failed, .transportError, [b 0xAE, b 0xD5, ⟨.byte 0x3C 0x00 0x80, .err⟩]) := by decide +kernel
/-- V5 -/
theorem test_step_clear :
    bytesAfter (ready (fbOf 1024 fun _ => 0xFF) 0x02000000000000000000) [0, 1023, 1024] =
      some [some 0, some 0, none] := by decide +kernel
/-- V56 -/
theorem test_step_get_width : answer (ready ramp 0x03000000000000000000) = some (.ok, 0x80) := by decide +kernel
/-- V56 -/
theorem test_step_get_height : answer (ready ramp 0x04000000000000000000) = some (.ok, 0x40) := by decide +kernel
/-- "Clearing one bit": SET_PIXEL 10, 3, 0 from all 0xFF -/
theorem test_step_set_pixel :
    bytesAfter (ready (fbOf 1024 fun _ => 0xFF) 0x0500000A000300000000) [9, 10, 11] =
      some [some 0xFF, some 0xF7, some 0xFF] := by decide +kernel
/-- V13: the range check is on x and y, not on the index -/
theorem test_step_set_pixel_outside :
    bytesAfter (ready (fbOf 1024 fun _ => 0) 0x05010080000000000000) [128] = some [some 0] := by decide +kernel
/-- V2 -/
theorem test_step_clear_rect :
    bytesAfter (ready (fbOf 1024 fun _ => 0) 0x060100050005000A000A) [4, 5, 14, 15, 132, 133, 142, 143] =
      some [some 0, some 0xE0, some 0xE0, some 0, some 0, some 0x7F, some 0x7F, some 0] := by decide +kernel
/-- V23 -/
theorem test_step_clear_rect_clipped :
    bytesAfter (ready (fbOf 1024 fun _ => 0) 0x0601FFFEFFFE00040004) [0, 1, 2, 127, 128] =
      some [some 0x03, some 0x03, some 0, some 0, some 0] := by decide +kernel
/-- V55 -/
theorem test_step_update_full :
    (nextOf (step { ready ramp 0x07000000000000000000 with answers := [.ok, .ok, .err] })).map
      (fun t => (t.mode, t.respStatus, t.trace)) =
    some (.ready, .transportError, [b 0x21, b 0x00, ⟨.byte 0x3C 0x00 0x7F, .err⟩]) := by decide +kernel
/-- V37; its word stands in the example of R116 -/
theorem test_step_update_rect :
    (nextOf (step { ready ramp 0x0800000A00030005000A with answers := List.replicate 7 .ok })).map
      (fun t => (t.respStatus, t.sidx, t.trace)) =
    some (.ok, 0, [b 0x21, b 0x0A, b 0x0E, b 0x22, b 0x00, b 0x01,
      ⟨.buf 0x3C 0x40 10 [0x0A, 0x0B, 0x0C, 0x0D, 0x0E, 0x8A, 0x8B, 0x8C, 0x8D, 0x8E], .ok⟩]) := by decide +kernel
/-- V54 -/
theorem test_step_update_rect_failed :
    (nextOf (step { ready ramp 0x08000000000000140008 with
        answers := [.ok, .ok, .ok, .ok, .ok, .ok, .ok, .err] })).map
      (fun t => (t.mode, t.respStatus, t.sidx, t.trace.length, t.trace.getLast?)) =
    some (.ready, .transportError, 4, 8, some ⟨.buf 0x3C 0x40 4 [0x10, 0x11, 0x12, 0x13], .err⟩) := by decide +kernel
/-- V4; GET_PIXEL 64, 32, its word by R60 -/
theorem test_step_get_pixel :
    answer (ready (memWrite (fbOf 1024 fun _ => 0) 576 1) 0x09000040002000000000) = some (.ok, 1) := by decide +kernel
/-- V13, read (its word by R60): out of range is 0 even when `FB` is all 0xFF -/
theorem test_step_get_pixel_outside :
    answer (ready (fbOf 1024 fun _ => 0xFF) 0x09000080000000000000) = some (.ok, 0) := by decide +kernel
/-- V49: as the first command after reset -/
theorem test_step_first_after_reset :
    answer (State.reset.withFetchWord 80 0x05010000000000000000) = some (.badState, 0) := by decide +kernel
/-- V53: decoding comes before the state gate -/
theorem test_step_illegal : answer (State.reset.withFetchWord 80 0x0A000000000000000000) = some (.illegalCommand, 0) := by
  decide +kernel
/-- Rules R25, R66: the codes the host sees -/
theorem test_codes :
    [Lifecycle.uninit, .initializing, .ready, .failed].map Lifecycle.code = [0, 1, 2, 3] ∧
    [Status.ok, .invalidArgument, .transportError, .badState, .illegalCommand].map Status.code = [0, 1, 2, 3, 4] := by
  decide
/-- Rules R64, R66, R67: the outputs right after reset -/
theorem test_outputs_after_reset :
    stateOutput State.reset = 0 ∧ cmdReady State.reset = true ∧ rspStatus State.reset = 0 := by decide

/-! ## Witnesses: for each obligation with hypotheses, what meets them -/

/-- A small legal configuration: 4 by 16 pixels, 8 bytes of `FB`, chunks of 3. -/
def smallConfig : Config :=
  { Config.reference with width := 4, height := 16, mts := 3, initSeq := [0xAE, 0xAF] }

/-- Operands x, y, w, h; ON set. -/
def ops (x y w h : Coord) : Operands := ⟨x, y, w, h, true, false⟩

/-- A small state in READY, every byte of `FB` written, with these answers to come. -/
def small (answers : List Answer) : State :=
  { State.reset with cfg := smallConfig, mode := .ready, fb := fbOf 8 fun i => BitVec.ofNat 8 (i + 1),
                     answers := answers }

/-- The same with a word at the command port. -/
def smallWith (w : CommandWord) (answers : List Answer) : State := { small answers with inputs := [.command w] }

/-- A small state in UNINIT. -/
def smallUninit (answers : List Answer) : State := { State.reset with cfg := smallConfig, answers := answers }

/-- Nine answers `ok`: an update of the whole small surface, 6 + ceil(8 / 3) transactions. -/
abbrev nineOk : List Answer := [.ok, .ok, .ok, .ok, .ok, .ok, .ok, .ok, .ok]

theorem small_written :
    memWritten smallConfig.fbBytes (small []).fb = true ∧ Memory.wf smallConfig.fbBytes (small []).fb = true := by
  decide

theorem ready_small (answers : List Answer) : (small answers).Ready :=
  ⟨(by decide : smallConfig.legal = true), rfl, small_written.1, small_written.2⟩

theorem inv_small : (small []).Inv :=
  ⟨by decide, by decide, by decide, fun _ => small_written.1, fun _ => by decide, by decide, by decide,
    fun h => absurd rfl h, by decide, by decide, by decide, by simp [small, State.reset]⟩

/-- CONSTRUCT on a small UNINIT state, both answers ok, reset after `k` transactions. -/
def constructCut (k : Nat) : State :=
  { smallUninit [.ok, .ok, .err] with inputs := [.resetDuring 0x01000000000000000000 k] }

/-- Rule R165: reset between the two transactions of a CONSTRUCT. The first stays issued, no response is produced, and
the answers go on from the second. -/
theorem test_reset_between_transactions :
    (nextOf (step (constructCut 1))).map (fun t => (t.mode, t.trace, t.responses, t.answers, t.busy)) =
      some (.uninit, [b 0xAE], [], [.ok, .err], false) := by decide +kernel

/-- Rule R165: reset after the last answer and before the response; one transaction later the response was produced. -/
theorem test_reset_before_the_response :
    (nextOf (step (constructCut 2))).map (fun t => (t.mode, t.trace, t.responses)) =
      some (.uninit, [b 0xAE, b 0xAF], []) ∧
    (nextOf (step (constructCut 3))).map (fun t => (t.mode, t.trace, t.responses)) =
      some (.uninit, [b 0xAE, b 0xAF], [⟨.ok, 0⟩]) := by decide +kernel

/-- Rules R64, R165: reset behind a word that waits at a busy port is taken, and the word goes on being presented. -/
theorem test_reset_behind_a_waiting_word :
    (nextOf (step { small [] with inputs := [.command 0, .reset], busy := true })).map
      (fun t => (t.mode, t.busy, t.inputs, t.responses)) = some (.uninit, false, [.command 0], []) := by decide +kernel

theorem witness_encode_of_decode : decode 0x0203FFFFFFFFFFFFFFFF = .ok (.clear ⟨-1, -1, -1, -1, true, true⟩) := by
  decide +kernel

theorem witness_word_selects_its_row :
    (0x0501000A000300000000 : CommandWord) &&& 0xFFFC0000000000000000 = 0x05000000000000000000 ∧
    ¬((0x0504000A000300000000 : CommandWord) &&& 0xFFFC0000000000000000 = 0x05000000000000000000) := by decide +kernel

theorem witness_illegal_words :
    ((0x00000000000000000000 : CommandWord).extractLsb' 72 8).toNat = 0 ∧
    9 < ((0x0A000000000000000000 : CommandWord).extractLsb' 72 8).toNat ∧
    (0x0504000A000300000000 : CommandWord).extractLsb' 66 6 ≠ 0 ∧
    (0x0904000A000300000000 : CommandWord).extractLsb' 66 6 ≠ 0 := by decide +kernel

theorem witness_step_runs :
    (smallWith 0x02000000000000000000 []).accepts 0x02000000000000000000 [] ∧
    decode 0x02000000000000000000 = .ok (.clear ⟨0, 0, 0, 0, false, false⟩) :=
  ⟨⟨by decide, rfl, rfl⟩, by decide +kernel⟩

theorem witness_illegal_word :
    (smallWith 0x0A000000000000000000 []).accepts 0x0A000000000000000000 [] ∧
    decode 0x0A000000000000000000 = .error (.reservedOpcode 0x0A) :=
  ⟨⟨by decide, rfl, rfl⟩, by decide +kernel⟩

theorem witness_waits :
    ((small []).cfg.legal = true ∧ (small []).inputs = []) ∧
    ∃ s : State, s.cfg.legal = true ∧ s.inputs = [.command 0] ∧ s.busy = true ∧ .reset ∉ s.inputs :=
  ⟨⟨by decide, rfl⟩, { smallWith 0 [] with busy := true }, by decide, rfl, rfl, by decide⟩

/-- Both clauses: the next input, also while CONSTRUCT waits for its answer; and behind a word at a busy port. -/
theorem witness_reset :
    (∃ s : State, s.cfg.legal = true ∧ s.inputs = .reset :: [] ∧ s.busy = true ∧ s.mode = .initializing) ∧
    ∃ s : State, s.cfg.legal = true ∧ s.busy = true ∧ .reset ∈ s.inputs ∧ s.inputs.erase .reset = [.command 0] :=
  ⟨⟨{ small [] with inputs := [.reset], busy := true, mode := .initializing }, by decide, rfl, rfl, rfl⟩,
    { small [] with inputs := [.command 0, .reset], busy := true }, by decide, rfl, by decide, by decide⟩

/-- CONSTRUCT of two bytes, cut short before its first transaction (k = 0), after its last (k = 2), and too late
(k = 3); run to its end it issues two transactions. -/
theorem witness_reset_during :
    (∀ k : Nat, (constructCut k).cfg.legal = true ∧ (constructCut k).busy = false ∧
      (constructCut k).inputs = .resetDuring 0x01000000000000000000 k :: []) ∧
    (nextOf (step { constructCut 0 with inputs := [.command 0x01000000000000000000] })).map
      (fun t => t.trace.length) = some 2 :=
  ⟨fun _ => ⟨(by decide : smallConfig.legal = true), rfl, rfl⟩, by decide +kernel⟩

/-- A reset that is taken inside a word, and a word that is presented with it. -/
theorem witness_takes_reset : (constructCut 1).TakesReset ∧ (constructCut 1).presents 0x01000000000000000000 :=
  ⟨.inr (.inr ⟨_, _, _, rfl, rfl⟩), [], .inr ⟨1, rfl⟩⟩

/-- Each bound of rule R5, just outside. -/
theorem witness_configuration_out_of_range :
    { smallConfig with width := 0 }.legal = false ∧ { smallConfig with width := 257 }.legal = false ∧
    { smallConfig with height := 0 }.legal = false ∧ { smallConfig with height := 2056 }.legal = false ∧
    { smallConfig with height := 12 }.legal = false ∧ { smallConfig with mts := 0 }.legal = false ∧
    { smallConfig with mts := 256 }.legal = false ∧
    { smallConfig with width := 256, height := 2048, mts := 255 }.legal = true := by decide

theorem witness_step_next : (nextOf (step (smallWith 0x02000000000000000000 []))).isSome = true := by decide +kernel

/-- Both clauses of the gate, and a callable command that answers. -/
theorem witness_gate :
    (smallUninit []).cfg.legal = true ∧ (smallUninit []).mode ≠ runsIn (.clear (ops 0 0 0 0)) ∧
    (small []).mode ≠ runsIn (.construct (ops 0 0 0 0)) ∧ (small []).mode = runsIn (.clear (ops 0 0 0 0)) ∧
    (nextOf (exec (.clear (ops 0 0 0 0)) (small []))).map (fun t => t.busy) = some false := by decide +kernel

/-- Each of the three clauses on UPDATE_RECT: 0x08... is UPDATE_RECT 0, 0, 0, 10 (rejected), then 0, 0, 4, 16. -/
theorem witness_priority :
    (smallWith 0x0800000000000000000A []).accepts 0x0800000000000000000A [] ∧
    decode 0x0800000000000000000A = .ok (.updateRect ⟨0, 0, 0, 10, false, false⟩) ∧
    rejects smallConfig 0 0 0 10 = true ∧
    decode 0x08000000000000040010 = .ok (.updateRect ⟨0, 0, 4, 16, false, false⟩) ∧
    rejects smallConfig 0 0 4 16 = false ∧ (updateTxs (small [.ok, .err]) 0 0 4 16).length = 9 ∧
    (small [.ok, .err]).AllOk 1 ∧ (small [.ok, .err]).answerAt 1 = .err :=
  ⟨⟨by decide, rfl, rfl⟩, by decide +kernel, by decide, by decide +kernel, by decide, by decide, by decide, rfl⟩

/-- The clauses on the gate, on UPDATE_FULL and on CONSTRUCT (last transaction of each answered err). -/
theorem witness_priority_others :
    (smallUninit []).mode ≠ runsIn (.updateRect (ops 0 0 0 10)) ∧
    decode 0x07000000000000000000 = .ok (.updateFull ⟨0, 0, 0, 0, false, false⟩) ∧
    (updateTxs (small []) 0 0 smallConfig.width smallConfig.height).length = 9 ∧
    (small [.ok, .ok, .ok, .ok, .ok, .ok, .ok, .ok, .err]).AllOk 8 ∧
    (small [.ok, .ok, .ok, .ok, .ok, .ok, .ok, .ok, .err]).answerAt 8 = .err ∧
    decode 0x01000000000000000000 = .ok (.construct ⟨0, 0, 0, 0, false, false⟩) ∧
    (smallUninit [.ok, .err]).AllOk 1 ∧ (smallUninit [.ok, .err]).answerAt 1 = .err := by decide +kernel

/-- One rectangle for each of the eight tests of rule R117, and the accepted corners. -/
theorem witness_rejects :
    rejects smallConfig (-1) 0 1 1 = true ∧ rejects smallConfig 5 0 (-1) 1 = true ∧
    rejects smallConfig 0 (-1) 1 1 = true ∧ rejects smallConfig 0 17 1 (-1) = true ∧
    rejects smallConfig 4 0 0 1 = true ∧ rejects smallConfig 0 16 1 0 = true ∧
    rejects smallConfig 4 0 1 1 = true ∧ rejects smallConfig 0 15 1 2 = true ∧
    rejects smallConfig 0 0 4 16 = false ∧ rejects smallConfig 3 15 1 1 = false ∧
    rejects smallConfig 0 0 1 1 = false := by decide

theorem witness_invalid_argument :
    (small []).mode = .ready ∧ ((ops 5 0 1 1).x.toInt > (small []).cfg.width) ∧
    (nextOf (exec (.updateRect (ops 5 0 1 1)) (small []))).map (fun t => (t.busy, t.respStatus)) =
      some (false, .invalidArgument) := by decide +kernel

theorem witness_transport_error :
    (nextOf (exec (.updateRect (ops 0 0 4 16)) (small [.ok, .err]))).map (fun t => (t.busy, t.respStatus)) =
      some (false, .transportError) ∧
    (nextOf (exec (.construct (ops 0 0 0 0)) (smallUninit [.ok, .err]))).map (fun t => (t.busy, t.respStatus)) =
      some (false, .transportError) := by decide +kernel

theorem witness_ready_state : (small []).Ready ∧ (small []).mode = .ready ∧ (small []).cfg.legal = true :=
  ⟨ready_small [], rfl, by decide⟩

/-- Pixels inside at the corners, and just outside. -/
theorem witness_pixels :
    inRange smallConfig 0 0 = true ∧ inRange smallConfig 3 15 = true ∧ inRange smallConfig 4 0 = false ∧
    inRange smallConfig 0 16 = false ∧ inRange smallConfig (-1) 0 = false ∧ inRange smallConfig 0 (-1) = false := by
  decide

theorem witness_set_pixel :
    inRange smallConfig (ops 3 15 0 0).x.toInt (ops 3 15 0 0).y.toInt = true ∧
    (nextOf (exec (.setPixel (ops 3 15 0 0)) (small []))).map (fun t => memRead t.fb 7) = some (some 0x88) := by
  decide +kernel

/-- Inside and outside the rectangle (1, 1, 2, 2); byte 5 is not met by it. -/
theorem witness_clear_rect :
    (1 ≤ 2 ∧ 2 < 1 + 2) ∧ ¬((1 : Int) ≤ 3 ∧ (3 : Int) < 1 + 2) ∧
    ¬((1 : Int) ≤ ((5 % 4 : Nat) : Int) ∧ ((5 % 4 : Nat) : Int) < 1 + 2 ∧ (1 : Int) < ((8 * (5 / 4) + 8 : Nat) : Int) ∧
      ((8 * (5 / 4) : Nat) : Int) < 1 + 2) ∧
    (nextOf (exec (.clearRect (ops 1 1 2 2)) (small []))).map (fun t => [0, 1, 2, 3, 5].map (memRead t.fb)) =
      some [some 0x01, some 0x06, some 0x07, some 0x04, some 0x06] := by decide +kernel

theorem witness_bijection :
    smallConfig.legal = true ∧ pixelIndex smallConfig 3 15 = 7 ∧ pixelBit 15 = 7 ∧ 7 < smallConfig.fbBytes := by decide

theorem witness_off_the_bus :
    (nextOf (exec (.getWidth (ops 0 0 0 0)) (smallUninit []))).isSome = true ∧
    (nextOf (exec (.getPixel (ops 3 15 0 0)) (small []))).isSome = true := by decide +kernel

theorem witness_unwritten :
    ∃ s : State, s.mode = .ready ∧ inRange s.cfg (ops 3 15 0 0).x.toInt (ops 3 15 0 0).y.toInt = true ∧
      memRead s.fb (pixelIndex s.cfg (ops 3 15 0 0).x.toInt (ops 3 15 0 0).y.toInt) = none :=
  ⟨{ small [] with fb := [] }, rfl, by decide, by decide⟩

/-- Each clause: all ok; the first and the last answer err; not in UNINIT. -/
theorem witness_construct :
    (smallUninit [.ok, .ok]).mode = .uninit ∧ (smallUninit [.ok, .ok]).AllOk 2 ∧
    (smallUninit [.err]).AllOk 0 ∧ (smallUninit [.err]).answerAt 0 = .err ∧
    (smallUninit [.ok, .err]).AllOk 1 ∧ (smallUninit [.ok, .err]).answerAt 1 = .err ∧
    (smallUninit []).cfg.initLen = 2 ∧ (small []).mode ≠ .uninit := by decide

theorem witness_construct_waits :
    (smallUninit [.ok, .never]).mode = .uninit ∧ 1 < (smallUninit [.ok, .never]).cfg.initLen ∧
    (smallUninit [.ok, .never]).AllOk 1 ∧ (smallUninit [.ok, .never]).answerAt 1 = .never := by decide

/-- The last pixel and the whole surface as accepted windows. -/
theorem witness_window :
    ∃ s u : State, s.cfg.legal = true ∧ rejects s.cfg s.opx.toInt s.opy.toInt s.opw.toInt s.oph.toInt = false ∧
      (computeWindow s).endCol = 3 ∧ (computeWindow s).startPage = 1 ∧ u.cfg.legal = true ∧
      rejects u.cfg u.opx.toInt u.opy.toInt u.opw.toInt u.oph.toInt = false ∧ (computeWindow u).endPage = 1 :=
  ⟨accept (ops 3 15 1 1) (small []), accept (ops 0 0 4 16) (small []), by decide, by decide, by decide, by decide,
    by decide, by decide, by decide⟩

theorem witness_update :
    (small nineOk).Ready ∧ rejects smallConfig (ops 0 0 4 16).x.toInt (ops 0 0 4 16).y.toInt (ops 0 0 4 16).w.toInt
      (ops 0 0 4 16).h.toInt = false ∧
    6 + chunkCount 3 (streamLength (ops 0 0 4 16).y.toInt (ops 0 0 4 16).w.toInt (ops 0 0 4 16).h.toInt) = 9 ∧
    6 + chunkCount 3 smallConfig.fbBytes = 9 ∧ (small nineOk).AllOk 9 ∧
    (nextOf (exec (.updateRect (ops 0 0 4 16)) (small nineOk))).map (fun t => (t.respStatus, t.trace.length)) =
      some (.ok, 9) :=
  ⟨ready_small _, by decide, by decide, by decide, by decide, by decide +kernel⟩

/-- The first failure at the first and last window byte (0, 5) and at the first and last chunk (6, 8). -/
theorem witness_update_ends :
    (small [.err]).AllOk 0 ∧ (small [.err]).answerAt 0 = .err ∧
    (small [.ok, .ok, .ok, .ok, .ok, .err]).AllOk 5 ∧ (small [.ok, .ok, .ok, .ok, .ok, .err]).answerAt 5 = .err ∧
    (small [.ok, .ok, .ok, .ok, .ok, .ok, .err]).AllOk 6 ∧ (small [.ok, .ok, .ok, .ok, .ok, .ok, .err]).answerAt 6 = .err ∧
    (small [.ok, .ok, .ok, .ok, .ok, .ok, .ok, .ok, .err]).AllOk 8 ∧
    (small [.ok, .ok, .ok, .ok, .ok, .ok, .ok, .ok, .err]).answerAt 8 = .err := by decide

theorem witness_update_waits : (small [.ok, .never]).AllOk 1 ∧ (small [.ok, .never]).answerAt 1 = .never := by decide

/-- A device that sees the update of the last pixel only: its byte 7 agrees, its byte 6 is as it was. -/
theorem witness_device :
    (nextOf (exec (.updateRect (ops 3 15 1 1)) (small [.ok, .ok, .ok, .ok, .ok, .ok, .ok]))).map (fun t =>
      [6, 7].map (memRead (deviceReceiveAll smallConfig (fun _ => 0) 0 t.trace
        ⟨fbOf 8 fun _ => 0xFF, 0, 0, 0, 0, 0, 0, []⟩).ram)) = some [some 0xFF, some 0x08] := by decide +kernel

theorem witness_invariant :
    (small []).Inv ∧ (nextOf (step (smallWith 0x02000000000000000000 []))).isSome = true :=
  ⟨inv_small, by decide +kernel⟩

/-- A step that changes STATE and DEV_ADDR: CONSTRUCT 0x3D accepted in UNINIT (V10). -/
theorem witness_construct_step :
    (nextOf (step { smallUninit [.ok, .ok] with inputs := [.command 0x0102003D000000000000] })).map
      (fun t => (t.mode, t.devAddr, t.trace.length)) = some (.ready, 0x3D, 2) := by decide +kernel

/-- An accepted word that answers, and one that waits for its answer. -/
theorem witness_one_response :
    (smallWith 0x02000000000000000000 []).accepts 0x02000000000000000000 [] ∧
    (nextOf (step (smallWith 0x02000000000000000000 []))).map (fun t => (t.busy, t.responses.length)) =
      some (false, 1) ∧
    (nextOf (step (smallWith 0x07000000000000000000 [.never]))).map (fun t => (t.busy, t.responses.length)) =
      some (true, 0) :=
  ⟨⟨by decide, rfl, rfl⟩, by decide +kernel, by decide +kernel⟩

/-- An UPDATE_FULL that ran, and a command of another kind. -/
theorem witness_operand_registers :
    (nextOf (step (smallWith 0x0700123456789ABCDEF0 nineOk))).map (fun t => (t.opx, t.opy, t.opw, t.oph)) =
      some (0, 0, 4, 16) ∧
    (nextOf (step (smallWith 0x0203FFFFFFFFFFFFFFFF []))).map (fun t => (t.opx, t.oph, t.opon, t.opovr)) =
      some (-1, -1, true, true) := by decide +kernel

theorem witness_unused_fields :
    sameUsed (.setPixel ⟨1, 2, 3, 4, true, true⟩) (.setPixel ⟨1, 2, 5, 6, true, false⟩) ∧
    sameUsed (.construct ⟨0x03D, 0, 0, 0, true, true⟩) (.construct ⟨0x8BD, 7, 0, 0, false, true⟩) ∧
    sameUsed (.updateFull ⟨1, 2, 3, 4, true, true⟩) (.updateFull ⟨0, 0, 0, 0, false, false⟩) := by
  refine ⟨⟨rfl, rfl, rfl⟩, ⟨rfl, fun _ => by decide⟩, trivial⟩

end Sys2Proof.Tests
end

/-! PROOFS. The statements of `spec/00_scope.md`: a configuration out of range, and a command whose transaction is
never answered (rules R5, R10, U11, U13). -/

namespace Sys2Proof.Machine

/-! ## What a command that runs sends -/

/-- The writes of CONSTRUCT are those of rule R106 a: its loop reads the address it has just set. -/
theorem initTxs_beginConstruct (s : State) (o : Operands) :
    s.cfg.initSeq.map (commandByteTx (beginConstruct (accept o s))) = initTxs s.cfg (constructAddr s.cfg o) := rfl

/-- CONSTRUCT in UNINIT whose k-th write is never answered (rules R10, R100): the whole state it waits in. -/
theorem execConstruct_waits {s : State} {o : Operands} {k : Nat} (hm : s.mode = .uninit) (hk : k < s.cfg.initLen)
    (hok : s.AllOk k) (hka : s.answerAt k = .never) :
    exec (.construct o) s =
      .next { ((beginConstruct (accept o s)).spent (k + 1)).logged
                (endedEntries (initTxs s.cfg (constructAddr s.cfg o)) k .never) with seqIdx := k } := by
  have hwait := sendInit_ended (s := beginConstruct (accept o s)) hk hok hka (by decide)
  rw [execConstruct_eq hm, hwait, if_neg (by decide), initTxs_beginConstruct]
  simp [beginConstruct]

/-- UPDATE_RECT in READY with a rectangle that is not rejected runs the flow of an accepted update (rule R116). -/
theorem execUpdateRect_accepted {s : State} {o : Operands} (hm : s.mode = .ready)
    (ha : rejects s.cfg o.x.toInt o.y.toInt o.w.toInt o.h.toInt = false) :
    exec (.updateRect o) s = (updateFlow (s.loaded o) o.x.toInt o.y.toInt o.w.toInt o.h.toInt).finish := by
  rw [execUpdateRect_eq hm]
  exact updateRectangle_accepted (s := accept o s) ha

end Sys2Proof.Machine

/-! ## The obligations -/

section
open Sys2Proof Sys2Proof.Machine

/-- Settles O12: the range check is the first thing a step does. -/
theorem configurationOutOfRangeIsRefused : Obligations.ConfigurationOutOfRangeIsRefused := by
  intro s hc
  simp [step, hc]

/-- Settles O31: the state CONSTRUCT waits in is known whole, and the statement's fields are read off it. -/
theorem constructWaitsForItsAnswer : Obligations.ConstructWaitsForItsAnswer := by
  intro s o k hm hk hok hka
  exact ⟨_, execConstruct_waits hm hk hok hka, rfl, rfl, rfl, rfl, rfl, rfl⟩

/-- Settles O37: of all that `updateFlow_ended` says of the first answer that is not `ok`, the case of one that never
comes. -/
theorem updateWaitsForItsAnswer : Obligations.UpdateWaitsForItsAnswer := by
  intro s o k hs ha hk hok hka
  rw [← updateTxs_length s o.x.toInt] at hk
  obtain ⟨m, i, p, c, -, -, -, hflow⟩ :=
    updateFlow_ended (s := s.loaded o) hs.legal hs.written ha hk hok hka (by decide)
  refine ⟨m, i, p, c, ?_⟩
  rw [execUpdateRect_accepted hs.mode ha, hflow]
  rfl

end

/-! PROOFS. The statements of `spec/10_state.md`: the values at reset, the invariant of rule R32, and which steps write
the configuration, DEV_ADDR, `FB` and the operand registers (rules R20 to R32, R115, R165). -/

namespace Sys2Proof.Machine

/-! ## The invariant and the shared operations (rule R32) -/

/-- The outcome is a next state, and that state meets the invariant. -/
def EndsInInv (r : Host.Outcome State Fault Refusal) : Prop := ∃ t, r = .next t ∧ t.Inv

theorem State.Inv.withInputs {s : State} (h : s.Inv) (ins : List Input) : { s with inputs := ins }.Inv :=
  { h with }

/-- The port of the accepted word is busy, so nothing is asked of `STATE`. -/
theorem State.Inv.accept {s : State} (h : s.Inv) (o : Operands) : (accept o s).Inv :=
  { h with notInitializing := fun hb => nomatch hb }

/-- A response makes the port ready, which INITIALIZING forbids. -/
theorem State.Inv.respond {s : State} (h : s.Inv) (hm : s.mode ≠ .initializing) (st : Status) (d : BitVec 16) :
    (respond st d s).Inv :=
  { h with notInitializing := fun _ => hm }

theorem State.Inv.withFb {s : State} (h : s.Inv) {fb : Memory} (hw : Memory.wf s.cfg.fbBytes fb = true)
    (hf : memWritten s.cfg.fbBytes fb = true) : { s with fb := fb }.Inv :=
  { h with fbWf := hw, readyWritten := fun _ => hf }

theorem State.Inv.loadWholeSurface {s : State} (h : s.Inv) : (loadWholeSurface s).Inv := { h with }

theorem State.Inv.windowed {s : State} (h : s.Inv) (x y w ht : Int) : (s.windowed x y w ht).Inv := { h with }

theorem State.Inv.spent {s : State} (h : s.Inv) (n : Nat) : (s.spent n).Inv := { h with }

theorem State.Inv.logged {s : State} (h : s.Inv) {es : List TraceEntry}
    (hes : ∀ e ∈ es, payloadBounded s.cfg.mts e.tx = true) : (s.logged es).Inv :=
  { h with payloads := List.forall_mem_append.mpr ⟨h.payloads, hes⟩ }

/-- Only in READY may a streaming phase leave `SIDX` other than 0. -/
theorem State.Inv.streamed {s : State} (h : s.Inv) (hm : s.mode = .ready) {m : Memory} {i p c : Nat}
    (hw : Memory.wf s.cfg.mts m = true) (hr : (memReadRange m 0 i).isSome = true) (hi : i ≤ s.cfg.mts)
    (hp : p ≤ s.cfg.pages) (hc : c ≤ s.cfg.width) : (s.streamed m i p c).Inv :=
  { h with
    scratchWf := hw, scratchWritten := hr, sidxBound := hi, pageBound := hp, colBound := hc
    sidxIdle := fun hne => absurd hm hne }

/-- Reset empties both memories and zeroes the counters; of what it leaves, only the trace has to be looked at. -/
theorem inv_resetBlock {s : State} (hl : s.cfg.legal = true)
    (hp : ∀ e ∈ s.trace, payloadBounded s.cfg.mts e.tx = true) : (resetBlock s).Inv where
  legal := hl
  fbWf := rfl
  scratchWf := rfl
  readyWritten := fun hm => nomatch hm
  notInitializing := fun _ hm => nomatch hm
  scratchWritten := rfl
  sidxBound := Nat.zero_le _
  sidxIdle := fun _ => rfl
  seqIdxBound := Nat.zero_le _
  pageBound := Nat.zero_le _
  colBound := Nat.zero_le _
  payloads := hp

/-- A command cut short by reset leaves in the trace what was there and some of what the command issued. -/
theorem inv_abandon {s t : State} (hs : s.Inv) (ht : t.Inv) (hc : t.cfg = s.cfg) (k : Nat) : (abandon k s t).Inv := by
  rcases abandon_cases k s t with ⟨-, h⟩ | ⟨-, h⟩ <;> rw [h]
  · refine inv_resetBlock hs.legal (List.forall_mem_append.mpr ⟨hs.payloads, fun e he => ?_⟩)
    have hmem : e ∈ t.trace := List.mem_of_mem_drop (List.mem_of_mem_take he)
    exact hc ▸ ht.payloads e hmem
  · exact inv_resetBlock ht.legal ht.payloads

/-! ## What the updates send is bounded (rule R135) -/

theorem payloadBounded_of_entryWellShaped {c : Config} {dev : BusAddress} {e : TraceEntry}
    (h : entryWellShaped c dev e = true) : payloadBounded c.mts e.tx = true := by
  simp only [entryWellShaped, Bool.and_eq_true] at h
  exact h.2

theorem payloadBounded_updateTxs {s : State} (hl : s.cfg.legal = true) (x y w h : Int) :
    ∀ t ∈ updateTxs s x y w h, payloadBounded s.cfg.mts t = true := by
  obtain ⟨-, -, -, -, -, h1, h255⟩ := (legal_iff s.cfg).mp hl
  intro t ht
  rcases List.mem_append.mp ht with ht | ht
  · obtain ⟨v, -, rfl⟩ := List.mem_map.mp ht
    rfl
  · obtain ⟨p, hp, rfl⟩ := List.mem_map.mp ht
    obtain ⟨hp1, hpm⟩ := chunks_bounded h1 hp
    simp [payloadBounded, hp1, hpm]
    omega

theorem mem_of_mem_okEntries {txs : List Transaction} {e : TraceEntry} (he : e ∈ okEntries txs) : e.tx ∈ txs := by
  obtain ⟨t, ht, rfl⟩ := List.mem_map.mp he
  exact ht

theorem mem_of_mem_endedEntries {txs : List Transaction} {k : Nat} {a : Answer} {e : TraceEntry}
    (he : e ∈ endedEntries txs k a) : e.tx ∈ txs := by
  rcases List.mem_append.mp he with he | he
  · exact List.mem_of_mem_take (mem_of_mem_okEntries he)
  · obtain ⟨t, ht, rfl⟩ := List.mem_map.mp he
    exact List.mem_of_mem_drop (List.mem_of_head? (Option.mem_toList.mp ht))

/-! ## Every command keeps the invariant and ends in a next state (rule R32) -/

/-- What an accepted update leaves: the invariant and READY, wherever the answers end it; it does not fault. -/
theorem updateFlow_inv {s : State} (hs : s.Inv) (hm : s.mode = .ready) {x y w h : Int}
    (ha : rejects s.cfg x y w h = false) :
    (updateFlow s x y w h).Post (fun t => t.Inv ∧ t.mode = .ready) (fun t => t.Inv ∧ t.mode = .ready) := by
  obtain ⟨-, hec, -, -, hep, -, -⟩ := window_range hs.legal ha
  have hf := hs.readyWritten hm
  have hsent : ∀ n es, (∀ e ∈ es, e.tx ∈ updateTxs s x y w h) → (((s.windowed x y w h).spent n).logged es).Inv :=
    fun n es hes => ((hs.windowed x y w h).spent n).logged
      fun e he => payloadBounded_updateTxs hs.legal x y w h _ (hes e he)
  rcases answers_cases s (updateTxs s x y w h).length with hok | ⟨k, a, hk, hok, hka, hne⟩
  · obtain ⟨m, hw, hflow⟩ := updateFlow_allOk hs.legal hf ha hok
    rw [hflow]
    exact ⟨(hsent _ _ fun _ => mem_of_mem_okEntries).streamed hm (hw hs.scratchWf) rfl (Nat.zero_le _) hep hec, hm⟩
  · obtain ⟨m, i, p, c, hw, hwin, hdata, hflow⟩ := updateFlow_ended hs.legal hf ha hk hok hka hne
    have hbounds : (memReadRange m 0 i).isSome = true ∧ i ≤ s.cfg.mts ∧ p ≤ s.cfg.pages ∧ c ≤ s.cfg.width := by
      by_cases hk6 : k < 6
      · obtain ⟨rfl, rfl, rfl, rfl⟩ := hwin hk6
        exact ⟨hs.scratchWritten, hs.sidxBound, hs.pageBound, hs.colBound⟩
      · obtain ⟨hr, -, hi, hp, hc⟩ := hdata (by omega)
        exact ⟨by simp [hr], hi, by omega, by omega⟩
    obtain ⟨hr, hi, hp, hc⟩ := hbounds
    have hend := (hsent (k + 1) (endedEntries _ k a) fun _ => mem_of_mem_endedEntries).streamed hm (hw hs.scratchWf)
      hr hi hp hc
    rw [hflow]
    split <;> exact ⟨hend, hm⟩

/-- A flow that leaves the invariant and READY ends its command so, with a response or waiting for an answer. -/
theorem endsInInv_finish {f : Flow}
    (h : f.Post (fun t => t.Inv ∧ t.mode = .ready) (fun t => t.Inv ∧ t.mode = .ready)) : EndsInInv f.finish := by
  cases f with
  | run s => exact ⟨_, rfl, h.1.respond (by simp [h.2]) _ _⟩
  | raised e s => exact ⟨_, rfl, h.1.respond (by simp [h.2]) _ _⟩
  | hung s => exact ⟨_, rfl, h.1⟩
  | fault x => exact h.elim

theorem endsInInv_updateRectangle {s : State} (hs : s.Inv) (hm : s.mode = .ready) :
    EndsInInv (updateRectangle s) := by
  cases hr : rejects s.cfg s.opx.toInt s.opy.toInt s.opw.toInt s.oph.toInt with
  | true => exact ⟨raise .invalidArgument s, by simp [updateRectangle, hr], hs.respond (by simp [hm]) _ _⟩
  | false =>
    rw [updateRectangle_accepted hr]
    exact endsInInv_finish (updateFlow_inv hs hm hr)

/-- CONSTRUCT leaves a written `FB`; it ran in UNINIT, where `SIDX` is 0, and it does not touch the scratch buffer. -/
theorem inv_construct {s : State} (hs : s.Inv) (hm : s.mode = .uninit) (o : Operands) :
    (sendInit s.cfg.initSeq (beginConstruct (accept o s))).Inv := by
  generalize ht : sendInit s.cfg.initSeq (beginConstruct (accept o s)) = t
  obtain ⟨hmode, -, hfb, -, -, ⟨hcfg, hscr, hsidx, hpage, hcol, hseq⟩, es, htr, hes, -⟩ :=
    construct_frame s o t ht.symm
  have hsidx0 : s.sidx = 0 := hs.sidxIdle (by simp [hm])
  exact {
    legal := by rw [hcfg]; exact hs.legal
    fbWf := by rw [hcfg, hfb]; exact wf_memZeros _
    scratchWf := by rw [hcfg, hscr]; exact hs.scratchWf
    readyWritten := fun _ => by rw [hcfg, hfb]; exact memWritten_memZeros _
    notInitializing := by
      rcases hmode with ⟨hready, -⟩ | ⟨hfailed, -⟩ | ⟨-, hbusy, -⟩
      · simp [hready]
      · simp [hfailed]
      · simp [hbusy]
    scratchWritten := by rw [hscr, hsidx]; exact hs.scratchWritten
    sidxBound := by rw [hcfg, hsidx]; exact hs.sidxBound
    sidxIdle := fun _ => hsidx.trans hsidx0
    seqIdxBound := by rw [hcfg]; exact hseq
    pageBound := by rw [hcfg, hpage]; exact hs.pageBound
    colBound := by rw [hcfg, hcol]; exact hs.colBound
    payloads := by
      rw [hcfg, htr]
      exact List.forall_mem_append.mpr ⟨hs.payloads, fun e he => payloadBounded_of_entryWellShaped (hes e he)⟩ }

/-- A drawing command that leaves `FB` canonical and written. -/
theorem endsInInv_finishDraw {s : State} (hs : s.Inv) (hm : s.mode = .ready) {r : Except Fault Memory}
    (hr : ∃ fb, r = .ok fb ∧ memWritten s.cfg.fbBytes fb = true ∧ Memory.wf s.cfg.fbBytes fb = true) :
    EndsInInv (finishDraw r s) := by
  obtain ⟨fb, rfl, hf, hw⟩ := hr
  exact ⟨_, rfl, (hs.withFb hw hf).respond (by simp [hm]) _ _⟩

/-- On a written `FB`, CLEAR_RECT does not stop, and keeps the canonical form and what is written. -/
theorem drawRect_keeps_written {c : Config} (x y w h : Int) (on : Bool) {fb : Memory}
    (hf : memWritten c.fbBytes fb = true) (hw : Memory.wf c.fbBytes fb = true) :
    ∃ fb', drawRect c x y w h on fb = .ok fb' ∧ memWritten c.fbBytes fb' = true ∧ Memory.wf c.fbBytes fb' = true :=
  ⟨_, drawRect_written x y w h on hf, memWritten_map (fun i v => applyOn on (rectMask c x y w h i) v) hf,
    wf_map (fun i v => applyOn on (rectMask c x y w h i) v) hw⟩

/-- GET_PIXEL reads a byte of `FB`, and in READY all of them are written. -/
theorem endsInInv_readPixel {s : State} (hs : s.Inv) (hm : s.mode = .ready) : EndsInInv (readPixel s) := by
  have hne : s.mode ≠ .initializing := by simp [hm]
  cases hr : inRange s.cfg s.opx.toInt s.opy.toInt with
  | false =>
    simp only [readPixel, hr, Bool.false_eq_true, if_false]
    exact ⟨_, rfl, hs.respond hne _ _⟩
  | true =>
    obtain ⟨v, hv⟩ := memWritten_iff.mp (hs.readyWritten hm) _ (pixelIndex_lt hs.legal hr)
    simp only [readPixel, hr, hv, if_true]
    exact ⟨_, rfl, hs.respond hne _ _⟩

/-- The gate is the table of rule R150. -/
theorem callable_iff (i : Instr) (m : Lifecycle) : callable i m = true ↔ m = runsIn i := by
  cases i <;> exact beq_iff_eq

/-- The gate: a command that is not callable only answers, so its body is all there is to look at. -/
theorem endsInInv_gated {i : Instr} {body : State → Host.Outcome State Fault Refusal} {s : State} (hs : s.Inv)
    (hb : s.busy = false) (hbody : s.mode = runsIn i → EndsInInv (body (accept i.operands s))) :
    EndsInInv (gated i body s) := by
  rw [gated_eq]
  split
  · rename_i hc
    exact hbody ((callable_iff i s.mode).mp hc)
  · exact ⟨_, rfl, (hs.accept _).respond (hs.notInitializing hb) _ _⟩

theorem endsInInv_exec {s : State} (hs : s.Inv) (hb : s.busy = false) (i : Instr) : EndsInInv (exec i s) := by
  have hne : s.mode ≠ .initializing := hs.notInitializing hb
  have hacc : (accept i.operands s).Inv := hs.accept _
  cases i with
  | construct o =>
    rw [exec, execConstruct]
    refine endsInInv_gated hs hb fun hm => ?_
    exact ⟨_, rfl, inv_construct hs hm o⟩
  | clear o =>
    rw [exec, execClear]
    refine endsInInv_gated hs hb fun _ => ?_
    exact ⟨_, rfl, (hacc.withFb (wf_memZeros _) (memWritten_memZeros _)).respond hne _ _⟩
  | getWidth o =>
    rw [exec, execGetWidth]
    refine endsInInv_gated hs hb fun _ => ?_
    exact ⟨_, rfl, hacc.respond hne _ _⟩
  | getHeight o =>
    rw [exec, execGetHeight]
    refine endsInInv_gated hs hb fun _ => ?_
    exact ⟨_, rfl, hacc.respond hne _ _⟩
  | setPixel o =>
    rw [exec, execSetPixel]
    refine endsInInv_gated hs hb fun hm => endsInInv_finishDraw hacc hm ?_
    exact drawPixel_written hs.legal _ _ _ (hs.readyWritten hm) hs.fbWf
  | clearRect o =>
    rw [exec, execClearRect]
    refine endsInInv_gated hs hb fun hm => endsInInv_finishDraw hacc hm ?_
    exact drawRect_keeps_written _ _ _ _ _ (hs.readyWritten hm) hs.fbWf
  | updateFull o =>
    rw [exec, execUpdateFull]
    refine endsInInv_gated hs hb fun hm => ?_
    exact endsInInv_updateRectangle hacc.loadWholeSurface hm
  | updateRect o =>
    rw [exec, execUpdateRect]
    refine endsInInv_gated hs hb fun hm => ?_
    exact endsInInv_updateRectangle hacc hm
  | getPixel o =>
    rw [exec, execGetPixel]
    refine endsInInv_gated hs hb fun hm => ?_
    exact endsInInv_readPixel hacc hm

theorem endsInInv_runWord {s : State} (hs : s.Inv) (hb : s.busy = false) (w : CommandWord) :
    EndsInInv (runWord w s) := by
  unfold runWord
  cases decode w with
  | ok i => exact endsInInv_exec hs hb i
  | error e => exact ⟨_, rfl, (hs.accept _).respond (hs.notInitializing hb) _ _⟩

/-- Rule R32 for one step: from a state that meets the invariant there is a next state, and it meets it too. -/
theorem endsInInv_step {s : State} (hs : s.Inv) : EndsInInv (step s) := by
  unfold step
  rw [if_pos hs.legal]
  rcases fetch_cases s with ⟨hf, -⟩ | ⟨rest, -, hf⟩ | ⟨w, rest, -, hb, hf⟩ | ⟨w, k, rest, -, hb, hf⟩ <;> rw [hf]
  · exact ⟨s, rfl, hs⟩
  · exact ⟨_, rfl, inv_resetBlock hs.legal hs.payloads⟩
  · exact endsInInv_runWord (hs.withInputs rest) hb w
  · obtain ⟨t, hrun, ht⟩ := endsInInv_runWord (hs.withInputs rest) hb w
    obtain ⟨hc, -⟩ := runWord_sends (s := { s with inputs := rest }) hs.legal hrun
    exact ⟨_, by simp only [runInterrupted, hrun], inv_abandon (hs.withInputs rest) ht hc k⟩

/-! ## What a step writes -/

/-- What a step can do, with every reset taken together: inside a command or not, it leaves the block's own state of
`State.reset` (rule R165). -/
theorem step_next_or_reset {s t : State} (h : step s = .next t) :
    t = s ∨
    (s.TakesReset ∧ t.cfg = s.cfg ∧ t.devAddr = 0x3C ∧ t.fb = []) ∨
    ∃ w rest, s.accepts w rest ∧ runWord w { s with inputs := rest } = .next t := by
  obtain ⟨hl, rfl | ⟨rest, hr, rfl⟩ | hword | ⟨w, k, rest, u, hb, hi, hu, rfl⟩⟩ := step_next h
  · exact .inl rfl
  · exact .inr (.inl ⟨hr, rfl, rfl, rfl⟩)
  · exact .inr (.inr hword)
  · obtain ⟨hc, hin, -⟩ := runWord_sends (s := { s with inputs := rest }) hl hu
    obtain ⟨as, n, tr, rs, he⟩ := abandon_frame k hc hin
    rw [he]
    exact .inr (.inl ⟨.inr (.inr ⟨w, k, rest, hb, hi⟩), rfl, rfl, rfl⟩)

/-- `FB` is left alone by every command but CONSTRUCT, CLEAR, SET_PIXEL and CLEAR_RECT (rule R21). -/
theorem exec_fb {i : Instr} {s t : State} (hl : s.cfg.legal = true) (h : exec i s = .next t) :
    t.fb = s.fb ∨ ∃ o, i = .construct o ∨ i = .clear o ∨ i = .setPixel o ∨ i = .clearRect o := by
  rcases exec_next h with
    ⟨-, rfl⟩ | ⟨-, ⟨o, fb, hi, -⟩ | ⟨o, d, -, rfl⟩ | ⟨o, hi, -⟩ | ⟨o, -, hu⟩ | ⟨o, -, hu⟩⟩
  · exact .inl rfl
  · exact .inr ⟨o, .inr hi⟩
  · exact .inl rfl
  · exact .inr ⟨o, .inl hi⟩
  · obtain ⟨-, -, hfb, -⟩ := updateRectangle_frame (s := accept o s) hl rfl rfl hu
    exact .inl hfb
  · obtain ⟨-, -, hfb, -⟩ := updateRectangle_frame (s := loadWholeSurface (accept o s)) hl rfl rfl hu
    exact .inl hfb

/-! ## The operand registers (rules R20, R61, R115) -/

/-- A state's operand registers, as the fields of a command word. -/
def State.operands (s : State) : Operands := ⟨s.opx, s.opy, s.opw, s.oph, s.opon, s.opovr⟩

/-- The operand fields UPDATE_FULL works with (rule R115). -/
def wholeSurface (c : Config) (o : Operands) : Operands :=
  { o with x := 0, y := 0, w := BitVec.ofNat 16 c.width, h := BitVec.ofNat 16 c.height }

theorem instrOfOpcode_operands {opc : BitVec 8} {o : Operands} {i : Instr} (h : instrOfOpcode opc o = some i) :
    i.operands = o := by
  unfold instrOfOpcode at h
  split at h <;> cases h <;> rfl

/-- Every command carries the operand fields of its word (rule R61). -/
theorem decode_operands {w : CommandWord} {i : Instr} (h : decode w = .ok i) : i.operands = fieldsOf w := by
  unfold decode at h
  split at h
  · split at h
    · rename_i j hj
      obtain rfl : j = i := Except.ok.inj h
      exact instrOfOpcode_operands hj
    · cases h
  · cases h

theorem updateRectangle_operands {s t : State} (hl : s.cfg.legal = true) (hb : s.busy = true)
    (hp : s.respPending = false) (h : updateRectangle s = .next t) : t.operands = s.operands := by
  obtain ⟨-, -, -, hx, hy, hw, hh, hon, hovr, -⟩ := updateRectangle_frame hl hb hp h
  simp only [State.operands, hx, hy, hw, hh, hon, hovr]

/-- What a command leaves in the operand registers: (0, 0, W, H) if it is an UPDATE_FULL that ran, and else what
acceptance loaded. -/
theorem exec_operands {i : Instr} {s t : State} (hl : s.cfg.legal = true) (h : exec i s = .next t) :
    (∃ o, i = .updateFull o ∧ s.mode = .ready ∧ t.operands = wholeSurface s.cfg o) ∨
    ((∀ o, i = .updateFull o → s.mode ≠ .ready) ∧ t.operands = i.operands) := by
  rcases exec_next h with
    ⟨hc, rfl⟩ | ⟨hc, ⟨o, fb, hi, rfl⟩ | ⟨o, d, hi, rfl⟩ | ⟨o, rfl, ht⟩ | ⟨o, rfl, hu⟩ | ⟨o, rfl, hu⟩⟩
  · refine .inr ⟨?_, rfl⟩
    rintro o rfl
    simpa [callable] using hc
  · rcases hi with rfl | rfl | rfl <;> exact .inr ⟨nofun, rfl⟩
  · rcases hi with rfl | rfl | rfl <;> exact .inr ⟨nofun, rfl⟩
  · obtain ⟨-, -, -, ⟨hx, hy, hw, hh, hon, hovr⟩, -⟩ := construct_frame s o t ht
    exact .inr ⟨nofun, by simp only [State.operands, hx, hy, hw, hh, hon, hovr, Instr.operands]⟩
  · exact .inr ⟨nofun, updateRectangle_operands (s := accept o s) hl rfl rfl hu⟩
  · have hm : s.mode = .ready := (callable_iff _ _).mp hc
    exact .inl ⟨o, rfl, hm, updateRectangle_operands (s := loadWholeSurface (accept o s)) hl rfl rfl hu⟩

/-! ## Reading an unwritten byte (rule R31) -/

theorem execGetPixel_eq {s : State} {o : Operands} (hm : s.mode = .ready) :
    exec (.getPixel o) s = readPixel (accept o s) := by
  simp only [exec, execGetPixel, gated_eq]
  rw [if_pos (by simp [callable, hm])]
  rfl

theorem drawPixel_unwritten {c : Config} {x y : Int} {on : Bool} {fb : Memory} (hr : inRange c x y = true)
    (hn : memRead fb (pixelIndex c x y) = none) :
    drawPixel c x y on fb = .error (.unwrittenFramebuffer (pixelIndex c x y)) := by
  simp only [drawPixel, hr, hn, if_true]

theorem readPixel_unwritten {s : State} (hr : inRange s.cfg s.opx.toInt s.opy.toInt = true)
    (hn : memRead s.fb (pixelIndex s.cfg s.opx.toInt s.opy.toInt) = none) :
    readPixel s = .fault (.unwrittenFramebuffer (pixelIndex s.cfg s.opx.toInt s.opy.toInt)) := by
  simp only [readPixel, hr, hn, if_true]

end Sys2Proof.Machine

/-! ## The obligations -/

section
open Sys2Proof Sys2Proof.Machine

/-- Settles O42: every step from a state that meets the invariant has a next state that meets it. -/
theorem stepKeepsTheInvariant : Obligations.StepKeepsTheInvariant := by
  intro s t hs h
  obtain ⟨t', h', ht'⟩ := endsInInv_step hs
  obtain rfl : t' = t := Host.Outcome.next.inj (h'.symm.trans h)
  exact ht'

/-- Settles O43: the other half of the same lemma. -/
theorem invariantStatesNeverStop : Obligations.InvariantStatesNeverStop := by
  intro s hs
  obtain ⟨t, h, -⟩ := endsInInv_step hs
  exact ⟨t, h⟩

/-- Settles O13, for a wait, a reset and a word in turn. -/
theorem stepKeepsTheConfiguration : Obligations.StepKeepsTheConfiguration := by
  intro s t h
  rcases step_next_or_reset h with rfl | ⟨-, hc, -⟩ | ⟨w, rest, ⟨hl, -, -⟩, hw⟩
  · rfl
  · exact hc
  · obtain ⟨hc, -⟩ := runWord_sends (s := { s with inputs := rest }) hl hw
    exact hc

/-- Settles O45: of a word, `runWord_sends` says which device address it leaves. -/
theorem deviceAddressWrittenOnlyByConstructAndReset : Obligations.DeviceAddressWrittenOnlyByConstructAndReset := by
  intro s t h
  rcases step_next_or_reset h with rfl | ⟨hr, -, hd, -⟩ | ⟨w, rest, hacc, hw⟩
  · exact .inl rfl
  · exact .inr (.inl ⟨hr, hd⟩)
  · obtain ⟨-, -, hd | ⟨o, hdec, hm, hd⟩, -⟩ := runWord_sends (s := { s with inputs := rest }) hacc.1 hw
    · exact .inl hd
    · exact .inr (.inr ⟨w, rest, o, hacc, hdec, hm, hd⟩)

/-- Settles O46: of the commands, `exec_fb` says which leave `FB` alone. -/
theorem framebufferWrittenOnlyByItsFourCommands : Obligations.FramebufferWrittenOnlyByItsFourCommands := by
  intro s t h
  rcases step_next_or_reset h with rfl | ⟨hr, -, -, hfb⟩ | ⟨w, rest, hacc, hw⟩
  · exact .inl rfl
  · exact .inr (.inl ⟨hr, fun i => by rw [hfb]; rfl⟩)
  · rcases runWord_next hw with ⟨i, hdec, hx⟩ | ⟨e, -, rfl⟩
    · rcases exec_fb (s := { s with inputs := rest }) hacc.1 hx with hfb | ⟨o, hi⟩
      · exact .inl hfb
      · refine .inr (.inr ⟨w, rest, o, hacc, ?_⟩)
        rcases hi with rfl | rfl | rfl | rfl <;> simp [hdec]
    · exact .inl rfl

/-- Settles O49: `exec_operands` with the fields of the decoded word; an illegal word loads them too. -/
theorem operandRegistersHoldTheWordsFields : Obligations.OperandRegistersHoldTheWordsFields := by
  intro s t w rest hacc h
  rw [step_accepted hacc] at h
  rcases runWord_next h with ⟨i, hdec, hexec⟩ | ⟨e, hdec, rfl⟩
  · have hops := decode_operands hdec
    rcases exec_operands (s := { s with inputs := rest }) hacc.1 hexec with ⟨o, rfl, hm, ht⟩ | ⟨hnot, ht⟩
    · obtain rfl : o = fieldsOf w := hops
      obtain ⟨hx, hy, hw, hh, hon, hovr⟩ := Operands.mk.inj ht
      exact ⟨hon, hovr, .inl ⟨_, hdec, hm, hx, hy, hw, hh⟩⟩
    · obtain ⟨hx, hy, hw, hh, hon, hovr⟩ := Operands.mk.inj (ht.trans hops)
      exact ⟨hon, hovr, .inr ⟨fun o ho => hnot o (Except.ok.inj (hdec.symm.trans ho)), hx, hy, hw, hh⟩⟩
  · exact ⟨rfl, rfl, .inr ⟨fun o ho => (nomatch hdec.symm.trans ho), rfl, rfl, rfl, rfl⟩⟩

/-- Settles O11: the values are those of the literal, and an empty memory holds no byte. -/
theorem stateAfterReset : Obligations.StateAfterReset :=
  ⟨rfl, rfl, rfl, rfl, rfl, rfl, rfl, rfl, fun _ => rfl, fun _ => rfl⟩

/-- Settles O29: both commands begin by reading the pixel's byte. -/
theorem unwrittenByteIsAFault : Obligations.UnwrittenByteIsAFault := by
  intro s o hm hr hn
  constructor
  · rw [execSetPixel_eq hm, drawPixel_unwritten hr hn]
    rfl
  · rw [execGetPixel_eq hm]
    exact readPixel_unwritten (s := accept o s) hr hn

/-- Settles O41: the state after reset is one that reset leaves as it is, with an empty trace. -/
theorem resetMeetsTheInvariant : Obligations.ResetMeetsTheInvariant :=
  inv_resetBlock (s := State.reset) (by decide) nofun

end

/-! PROOFS. The statement of `spec/20_memory.md`: the device of rule R47 after a successful update (log 16, log 19,
log 20). -/

namespace Sys2Proof.Machine

/-! ## What a successful update sends -/

/-- UPDATE_RECT of an accepted rectangle, every transaction answered `ok`, answers (OK, 0) and has sent the
transactions of rule R122 c. -/
theorem execUpdateRect_allOk {s : State} {o : Operands} (hs : s.Ready)
    (ha : rejects s.cfg o.x.toInt o.y.toInt o.w.toInt o.h.toInt = false)
    (hok : s.AllOk (6 + chunkCount s.cfg.mts (streamLength o.y.toInt o.w.toInt o.h.toInt))) :
    ∃ m, (Memory.wf s.cfg.mts s.scratch = true → Memory.wf s.cfg.mts m = true) ∧
      exec (.updateRect o) s =
        .next (((((s.completed o .ok 0).windowed o.x.toInt o.y.toInt o.w.toInt o.h.toInt).spent
          (updateTxs s o.x.toInt o.y.toInt o.w.toInt o.h.toInt).length).logged
          (okEntries (updateTxs s o.x.toInt o.y.toInt o.w.toInt o.h.toInt))).streamed m 0
            (endPageOf o.y.toInt o.h.toInt + 1) (endColOf o.x.toInt o.w.toInt + 1)) := by
  rw [← updateTxs_length s o.x.toInt] at hok
  obtain ⟨m, hwf, hflow⟩ := updateFlow_allOk (s := s.loaded o) hs.legal hs.written ha hok
  refine ⟨m, hwf, ?_⟩
  rw [execUpdateRect_accepted hs.mode ha, hflow]
  rfl

/-- The boundary bytes of an accepted rectangle are the boundaries themselves (rule R119). -/
theorem windowRegisters_toNat {c : Config} (hl : c.legal = true) {x y w h : Int} (ha : rejects c x y w h = false) :
    (BitVec.ofNat 8 (startColOf x)).toNat = startColOf x ∧ (BitVec.ofNat 8 (endColOf x w)).toNat = endColOf x w ∧
    (BitVec.ofNat 8 (startPageOf y)).toNat = startPageOf y ∧
    (BitVec.ofNat 8 (endPageOf y h)).toNat = endPageOf y h := by
  obtain ⟨hcols, -, hec, hpages, -, hep, -⟩ := window_range hl ha
  simp only [BitVec.toNat_ofNat]
  omega

/-- The byte stream of an accepted rectangle, page by page (rules R130, R133). -/
theorem streamBytes_pages {s : State} (hl : s.cfg.legal = true) {x y w h : Int} (ha : rejects s.cfg x y w h = false) :
    streamBytes s x y w h =
      ((List.range (endPageOf y h + 1 - startPageOf y)).map fun i => (List.range w.toNat).map fun j =>
        (memRead s.fb (byteIndex s.cfg (startPageOf y + i) (startColOf x + j))).getD 0).flatten := by
  obtain ⟨hsc, hec, hsp, hep⟩ := windowRegisters_toNat hl ha
  obtain ⟨-, -, -, -, -, -, hw⟩ := window_range hl ha
  rw [← windowBytes_windowed hl ha]
  simp [windowBytes, pageBytes, hsc, hec, hsp, hep, hw, List.flatMap_def]

/-! ## What the device makes of it (rule R47) -/

/-- The device takes the six window bytes, which leave its display RAM alone and put its cursor at the start of the
window, and then stores the byte stream. -/
theorem deviceReceiveAll_update {s : State} (hl : s.cfg.legal = true) {x y w h : Int}
    (ha : rejects s.cfg x y w h = false) (taken : Nat → Nat) (k : Nat) (d : Device) :
    ∃ e : Device,
      deviceReceiveAll s.cfg taken k (okEntries (updateTxs s x y w h)) d =
        deviceStoreAll s.cfg (streamBytes s x y w h) e ∧
      e.ram = d.ram ∧ e.startCol = startColOf x ∧ e.endCol = endColOf x w ∧ e.col = startColOf x ∧
      e.page = startPageOf y := by
  obtain ⟨hsc, hec, hsp, -⟩ := windowRegisters_toNat hl ha
  obtain ⟨-, -, -, -, -, hmts, -⟩ := (legal_iff s.cfg).mp hl
  obtain ⟨recent, hwindow⟩ := deviceReceiveAll_window s x y w h taken k d
  have hsplit : okEntries (updateTxs s x y w h) = okEntries (windowTxs s x y w h) ++
      okEntries ((chunks s.cfg.mts (streamBytes s x y w h)).map (bufTx s.cfg s.devAddr)) := List.map_append
  rw [hsplit, deviceReceiveAll_append, hwindow, deviceReceiveAll_chunks, chunks_flatten hmts]
  exact ⟨_, rfl, rfl, hsc, hec, hsc, hsp⟩

/-- Every byte of an accepted window is written, so `FB` holds the byte the stream carries for it (rules R32, R119). -/
theorem memRead_window {s : State} (hs : s.Ready) {x y w h : Int} (ha : rejects s.cfg x y w h = false) {p c : Nat}
    (hp : p ≤ endPageOf y h) (hc : c ≤ endColOf x w) :
    memRead s.fb (byteIndex s.cfg p c) = some ((memRead s.fb (byteIndex s.cfg p c)).getD 0) := by
  obtain ⟨-, hec, -, -, hep, -, -⟩ := window_range hs.legal ha
  obtain ⟨v, hv⟩ := memWritten_iff.mp hs.written _ (byteIndex_lt hs.legal (by omega : p < _) (by omega : c < _))
  rw [hv]
  rfl

/-- After the transactions of an accepted update, all answered `ok`, the device has the bytes of `FB` in the window and
its own bytes outside it: `deviceStoreAll_window`, in page and column numbers. -/
theorem deviceReceiveAll_update_ram {s : State} (hs : s.Ready) {x y w h : Int} (ha : rejects s.cfg x y w h = false)
    (taken : Nat → Nat) (k : Nat) (d : Device) :
    (∀ p c, startPageOf y ≤ p → p ≤ endPageOf y h → startColOf x ≤ c → c ≤ endColOf x w →
      memRead (deviceReceiveAll s.cfg taken k (okEntries (updateTxs s x y w h)) d).ram (byteIndex s.cfg p c) =
        memRead s.fb (byteIndex s.cfg p c)) ∧
    ∀ a, (∀ p c, startPageOf y ≤ p → p ≤ endPageOf y h → startColOf x ≤ c → c ≤ endColOf x w →
        a ≠ byteIndex s.cfg p c) →
      memRead (deviceReceiveAll s.cfg taken k (okEntries (updateTxs s x y w h)) d).ram a = memRead d.ram a := by
  obtain ⟨hcols, -, -, hpages, -, -, hw⟩ := window_range hs.legal ha
  obtain ⟨e, hrecv, hram, hstart, hend, hcol, hpage⟩ := deviceReceiveAll_update hs.legal ha taken k d
  have hstore := deviceStoreAll_window s.cfg (fun i => (memRead s.fb i).getD 0) (startColOf x) w.toNat
    (endPageOf y h + 1 - startPageOf y) (startPageOf y) e (by omega) hcol hstart (by omega) hpage
  rw [hrecv, streamBytes_pages hs.legal ha, ← hram]
  constructor
  · intro p c hsp hep hsc hec
    rw [memRead_window hs ha hep hec]
    refine (hstore _).1 (p - startPageOf y) (c - startColOf x) (by omega) (by omega) ?_
    rw [Nat.add_sub_cancel' hsp, Nat.add_sub_cancel' hsc]
  · intro a hout
    exact (hstore a).2 fun i j hi hj => hout _ _ (by omega) (by omega) (by omega) (by omega)

end Sys2Proof.Machine

/-! ## The obligation -/

section
open Sys2Proof Sys2Proof.Machine

/-- Settles O40: a successful update adds the transactions of rule R122 c to the trace (`execUpdateRect_allOk`), and
`deviceReceiveAll_update_ram` says what they leave in the device. -/
theorem deviceAgreesAfterAnUpdate : Obligations.DeviceAgreesAfterAnUpdate := by
  intro s t o d taken hs ha hok hexec
  obtain ⟨m, -, hnext⟩ := execUpdateRect_allOk hs ha hok
  obtain rfl := Host.Outcome.next.inj (hnext.symm.trans hexec)
  simp only [streamed_trace, logged_trace, spent_trace, windowed_trace, completed_trace, List.drop_left]
  exact deviceReceiveAll_update_ram hs ha taken 0 d

end

/-! PROOFS. The statements of `spec/30_encoding.md`: the word of a command and the opcode map, the byte channel, the
fields without effect, the one response to a word and the transactions a step issues (rules R60 to R69, R135, R178). -/

namespace Sys2Proof

/-! ## Words and their fields (rule R60) -/

theorem extractLsb'_eq_of_getLsbD {m n : Nat} {v : BitVec m} (start : Nat) (x : BitVec n)
    (h : ∀ k, k < n → v.getLsbD (start + k) = x.getLsbD k) : v.extractLsb' start n = x := by
  refine BitVec.eq_of_getLsbD_eq fun k hk => ?_
  rw [BitVec.getLsbD_extractLsb', h k hk, decide_eq_true hk, Bool.true_and]

/-- The fields read from a word are those put into it. -/
theorem splitWord_joinFields (f : CommandFields) : splitWord (joinFields f) = f := by
  have hopc := extractLsb'_eq_of_getLsbD (v := joinFields f) 72 f.opc fun k _ => by rw [getLsbD_joinFields]; grind
  have hrsv := extractLsb'_eq_of_getLsbD (v := joinFields f) 66 f.rsv fun k _ => by rw [getLsbD_joinFields]; grind
  have hx := extractLsb'_eq_of_getLsbD (v := joinFields f) 48 f.ops.x fun k _ => by rw [getLsbD_joinFields]; grind
  have hy := extractLsb'_eq_of_getLsbD (v := joinFields f) 32 f.ops.y fun k _ => by rw [getLsbD_joinFields]; grind
  have hw := extractLsb'_eq_of_getLsbD (v := joinFields f) 16 f.ops.w fun k _ => by rw [getLsbD_joinFields]; grind
  have hh := extractLsb'_eq_of_getLsbD (v := joinFields f) 0 f.ops.h fun k _ => by rw [getLsbD_joinFields]; grind
  have hon : (joinFields f).getLsbD 64 = f.ops.on := by rw [getLsbD_joinFields]; rfl
  have hovr : (joinFields f).getLsbD 65 = f.ops.ovr := by rw [getLsbD_joinFields]; rfl
  rw [splitWord, hopc, hrsv, hx, hy, hw, hh, hon, hovr]

/-- A word is nothing but its fields. -/
theorem joinFields_splitWord (w : CommandWord) : joinFields (splitWord w) = w := by
  refine BitVec.eq_of_getLsbD_eq fun k hk => ?_
  rw [getLsbD_joinFields]
  simp only [splitWord, BitVec.getLsbD_extractLsb']
  grind

/-- The operand fields the statements write out are those the decoder reads. -/
theorem splitWord_ops (w : CommandWord) : (splitWord w).ops = Machine.fieldsOf w := rfl

theorem joinFields_inj {f g : CommandFields} : joinFields f = joinFields g ↔ f = g :=
  Function.LeftInverse.injective splitWord_joinFields |>.eq_iff

/-! ## The decoder, by the fields of the word (rules R61 to R63) -/

theorem instrOfOpcode_eq_some_iff {opc : BitVec 8} {o : Operands} {i : Instr} :
    instrOfOpcode opc o = some i ↔ i.opcode = opc ∧ i.operands = o := by
  constructor
  · intro h
    refine ⟨BitVec.eq_of_toNat_eq ?_, Machine.instrOfOpcode_operands h⟩
    unfold instrOfOpcode at h
    split at h <;> cases h <;> exact Eq.symm ‹_›
  · rintro ⟨rfl, rfl⟩
    cases i <;> rfl

/-- Rule R63 a: the reserved opcodes. -/
theorem instrOfOpcode_eq_none_iff {opc : BitVec 8} {o : Operands} :
    instrOfOpcode opc o = none ↔ opc.toNat = 0 ∨ 9 < opc.toNat := by
  unfold instrOfOpcode
  split <;> grind

theorem decode_eq_ok_iff_opcode {w : CommandWord} {i : Instr} :
    decode w = .ok i ↔ (splitWord w).rsv = 0 ∧ instrOfOpcode (splitWord w).opc (splitWord w).ops = some i := by
  unfold decode
  by_cases hr : (splitWord w).rsv = 0
  · rw [if_pos hr, and_iff_right hr]
    cases instrOfOpcode (splitWord w).opc (splitWord w).ops <;> simp
  · rw [if_neg hr]
    simp only [hr, reduceCtorEq, false_and]

/-- What the encoder and the decoder have in common: a word decodes to a command exactly when it has its fields. -/
theorem decode_eq_ok_iff {w : CommandWord} {i : Instr} : decode w = .ok i ↔ splitWord w = i.fields := by
  rw [decode_eq_ok_iff_opcode, instrOfOpcode_eq_some_iff]
  obtain ⟨opc, rsv, o⟩ := splitWord w
  simp only [Instr.fields, CommandFields.mk.injEq]
  tauto

theorem decode_encode (i : Instr) : decode (encode i) = .ok i :=
  decode_eq_ok_iff.mpr (splitWord_joinFields i.fields)

theorem decode_eq_error_iff {w : CommandWord} :
    (∃ e, decode w = .error e) ↔
      instrOfOpcode (splitWord w).opc (splitWord w).ops = none ∨ (splitWord w).rsv ≠ 0 := by
  have hnot : (∃ e, decode w = .error e) ↔ ∀ i, decode w ≠ .ok i := by cases decode w <;> simp
  simp only [hnot, ne_eq, decode_eq_ok_iff_opcode, Option.eq_none_iff_forall_ne_some]
  grind

/-! ## The opcode map (rule R62) -/

/-- Operand fields that are all 0. -/
def noOperands : Operands := ⟨0, 0, 0, 0, false, false⟩

theorem getLsbD_opcodeMask (k : Nat) :
    (0xFFFC0000000000000000 : CommandWord).getLsbD k = (decide (66 ≤ k) && decide (k < 80)) := by
  rw [show (0xFFFC0000000000000000 : CommandWord) = BitVec.allOnes 80 <<< 66 by decide]
  simp only [BitVec.getLsbD_shiftLeft, BitVec.getLsbD_allOnes]
  grind

/-- The mask keeps the opcode and the reserved bits. -/
theorem and_opcodeMask (w : CommandWord) :
    w &&& 0xFFFC0000000000000000 = joinFields { splitWord w with ops := noOperands } := by
  refine BitVec.eq_of_getLsbD_eq fun k hk => ?_
  rw [BitVec.getLsbD_and, getLsbD_opcodeMask, getLsbD_joinFields]
  simp only [splitWord, noOperands, BitVec.getLsbD_extractLsb']
  grind

/-- The `match` of a row is the word of its command with every operand 0. -/
theorem opcodeRow_match {r : CommandWord × (Operands → Instr)} (hr : r ∈ Machine.opcodeRows) :
    r.1 = encode (r.2 noOperands) := by
  fin_cases hr <;> decide

theorem opcodeRow_fields {r : CommandWord × (Operands → Instr)} (hr : r ∈ Machine.opcodeRows) (o : Operands) :
    (r.2 o).fields = { (r.2 noOperands).fields with ops := o } := by
  fin_cases hr <;> rfl

/-! ## The byte channel (rule R60) -/

theorem wordOfBytes_byteOfWord (w : CommandWord) (rest : List Byte) :
    wordOfBytes ((List.range 10).map (byteOfWord w) ++ rest) = some (w, rest) := by
  have hbytes : byteOfWord w 0 ++ byteOfWord w 1 ++ byteOfWord w 2 ++ byteOfWord w 3 ++ byteOfWord w 4 ++
      byteOfWord w 5 ++ byteOfWord w 6 ++ byteOfWord w 7 ++ byteOfWord w 8 ++ byteOfWord w 9 = w := by
    refine BitVec.eq_of_getLsbD_eq fun k hk => ?_
    rw [getLsbD_tenBytes]
    simp only [byteOfWord]
    interval_cases k <;> simp
  exact congrArg (fun v => some (v, rest)) hbytes

end Sys2Proof

namespace Sys2Proof.Machine

/-! ## Fields without effect (rule R63 d) -/

/-- The window registers are computed from the operand registers and from nothing else that is forgotten with them. -/
theorem forget_computeWindow_congr {u v : State} (h : u.forgetOperands = v.forgetOperands) (hx : u.opx = v.opx)
    (hy : u.opy = v.opy) (hw : u.opw = v.opw) (hh : u.oph = v.oph) :
    (computeWindow u).forgetOperands = (computeWindow v).forgetOperands := by
  have hcongr : ∀ s : State, (computeWindow s).forgetOperands =
      { s.forgetOperands with
        startCol := BitVec.ofInt 8 s.opx.toInt
        endCol := BitVec.ofInt 8 (s.opx.toInt + s.opw.toInt - 1)
        startPage := BitVec.ofInt 8 (s.opy.toInt / 8)
        endPage := BitVec.ofInt 8 ((s.opy.toInt + s.oph.toInt - 1) / 8) } := fun _ => rfl
  rw [hcongr, hcongr, h, hx, hy, hw, hh]

/-- What is left when the operand registers are forgotten still tells the configuration and `FB`. -/
theorem cfg_fb_eq_of_forgetOperands_eq {u v : State} (h : u.forgetOperands = v.forgetOperands) :
    u.cfg = v.cfg ∧ u.fb = v.fb :=
  ⟨(congrArg State.cfg h : u.forgetOperands.cfg = _), (congrArg State.fb h : u.forgetOperands.fb = _)⟩

theorem forget_updateRectangle_congr {u v : State} (h : u.forgetOperands = v.forgetOperands) (hx : u.opx = v.opx)
    (hy : u.opy = v.opy) (hw : u.opw = v.opw) (hh : u.oph = v.oph) :
    forgetOperands (updateRectangle u) = forgetOperands (updateRectangle v) := by
  obtain ⟨hcfg, -⟩ := cfg_fb_eq_of_forgetOperands_eq h
  have hflow : ∀ s : State, ((setWindow s).andThen stream).forget = (setWindow s.forgetOperands).andThen stream :=
    fun s => by rw [forget_setWindow, forget_andThen forget_stream]
  unfold updateRectangle
  rw [hcfg, hx, hy, hw, hh]
  split
  · exact congrArg (fun s => Host.Outcome.next (raise .invalidArgument s)) h
  · rw [forget_finish, hflow, forget_computeWindow_congr h hx hy hw hh, ← hflow, ← forget_finish]

theorem forget_finishDraw_congr {u v : State} (r : Except Fault Memory) (h : u.forgetOperands = v.forgetOperands) :
    forgetOperands (finishDraw r u) = forgetOperands (finishDraw r v) := by
  cases r with
  | ok fb => exact congrArg (fun s => Host.Outcome.next (respond .ok 0 { s with fb := fb })) h
  | error f => rfl

theorem forget_respond_congr {u v : State} (st : Status) (d : BitVec 16) (h : u.forgetOperands = v.forgetOperands) :
    forgetOperands (.next (respond st d u)) = forgetOperands (.next (respond st d v)) :=
  congrArg (fun s => Host.Outcome.next (respond st d s)) h

theorem forget_readPixel_congr {u v : State} (h : u.forgetOperands = v.forgetOperands) (hx : u.opx = v.opx)
    (hy : u.opy = v.opy) : forgetOperands (readPixel u) = forgetOperands (readPixel v) := by
  obtain ⟨hcfg, hfb⟩ := cfg_fb_eq_of_forgetOperands_eq h
  unfold readPixel
  rw [hcfg, hfb, hx, hy]
  split
  · split
    · exact forget_respond_congr _ _ h
    · rfl
  · exact forget_respond_congr _ _ h

theorem constructAddr_congr (c : Config) {o p : Operands} (hovr : o.ovr = p.ovr)
    (haddr : o.ovr = true → o.x.extractLsb' 0 7 = p.x.extractLsb' 0 7) : constructAddr c o = constructAddr c p := by
  unfold constructAddr
  rw [← hovr]
  split
  · exact haddr ‹_›
  · rfl

/-- CONSTRUCT uses of its operand fields only the device address they give. -/
theorem forget_construct_congr {o p : Operands} (s : State) (h : constructAddr s.cfg o = constructAddr s.cfg p) :
    (sendInit s.cfg.initSeq (beginConstruct (accept o s))).forgetOperands =
      (sendInit s.cfg.initSeq (beginConstruct (accept p s))).forgetOperands := by
  have hbegin : ∀ q : Operands, (beginConstruct (accept q s)).forgetOperands =
      { (beginConstruct (accept noOperands s)).forgetOperands with devAddr := constructAddr s.cfg q } := fun _ => rfl
  rw [forget_sendInit, forget_sendInit, hbegin, hbegin p, h]

/-- Commands that pass the same gate have the same outcome up to the operand registers when their bodies have. -/
theorem forget_gated_congr {i j : Instr} {f g : State → Host.Outcome State Fault Refusal} {s : State}
    (hij : runsIn i = runsIn j)
    (h : forgetOperands (f (accept i.operands s)) = forgetOperands (g (accept j.operands s))) :
    forgetOperands (gated i f s) = forgetOperands (gated j g s) := by
  have hc : callable i s.mode = callable j s.mode := by
    rw [Bool.eq_iff_iff, callable_iff, callable_iff, hij]
  rw [gated_eq, gated_eq, hc]
  split
  · exact h
  · rfl

/-- What a command runs behind the gate. -/
def commandBody : Instr → State → Host.Outcome State Fault Refusal
  | .construct _ => fun s => .next (sendInit s.cfg.initSeq (beginConstruct s))
  | .clear _ => fun s => .next (respond .ok 0 { s with fb := memZeros s.cfg.fbBytes })
  | .getWidth _ => fun s => .next (respond .ok (BitVec.ofNat 16 s.cfg.width) s)
  | .getHeight _ => fun s => .next (respond .ok (BitVec.ofNat 16 s.cfg.height) s)
  | .setPixel _ => fun s => finishDraw (drawPixel s.cfg s.opx.toInt s.opy.toInt s.opon s.fb) s
  | .clearRect _ => fun s =>
    finishDraw (drawRect s.cfg s.opx.toInt s.opy.toInt s.opw.toInt s.oph.toInt s.opon s.fb) s
  | .updateFull _ => fun s => updateRectangle (loadWholeSurface s)
  | .updateRect _ => updateRectangle
  | .getPixel _ => readPixel

theorem exec_eq_gated (i : Instr) (s : State) : exec i s = gated i (commandBody i) s := by cases i <;> rfl

theorem runsIn_eq_of_sameUsed {i j : Instr} (h : sameUsed i j) : runsIn i = runsIn j := by
  unfold sameUsed at h
  split at h
  case h_10 => exact h.elim
  all_goals rfl

/-- Command by command, the body reads no operand register but those of the fields the command uses. -/
theorem forget_commandBody_congr {i j : Instr} (s : State) (h : sameUsed i j) :
    forgetOperands (commandBody i (accept i.operands s)) = forgetOperands (commandBody j (accept j.operands s)) := by
  unfold sameUsed at h
  split at h
  case h_1 o p =>
    obtain ⟨hovr, haddr⟩ := h
    exact congrArg Host.Outcome.next (forget_construct_congr s (constructAddr_congr s.cfg hovr haddr))
  case h_2 o p => exact forget_respond_congr _ _ rfl
  case h_3 o p => exact forget_respond_congr _ _ rfl
  case h_4 o p => exact forget_respond_congr _ _ rfl
  case h_5 o p =>
    obtain ⟨hon, hx, hy⟩ := h
    simp only [commandBody, Instr.operands, accept_cfg, accept_fb, accept_opx, accept_opy, accept_opon, hon, hx, hy]
    exact forget_finishDraw_congr _ rfl
  case h_6 o p =>
    obtain ⟨hon, hx, hy, hw, hh⟩ := h
    simp only [commandBody, Instr.operands, accept_cfg, accept_fb, accept_opx, accept_opy, accept_opw, accept_oph,
      accept_opon, hon, hx, hy, hw, hh]
    exact forget_finishDraw_congr _ rfl
  case h_7 o p => exact forget_updateRectangle_congr rfl rfl rfl rfl rfl
  case h_8 o p =>
    obtain ⟨hx, hy, hw, hh⟩ := h
    exact forget_updateRectangle_congr rfl hx hy hw hh
  case h_9 o p =>
    obtain ⟨hx, hy⟩ := h
    exact forget_readPixel_congr rfl hx hy
  case h_10 => exact h.elim

/-! ## The command port (rule R64) -/

theorem fetch_eq_wait {s : State} (h : s.inputs = [] ∨ s.busy = true ∧ .reset ∉ s.inputs) : fetch s = .wait := by
  rcases h with hnone | ⟨hb, hr⟩
  · simp [fetch, hnone]
  · simp [fetch, hb, hr]

/-! ## The one response (rules R10, R66) -/

/-- A command that ran, or was stopped by the gate, has answered once or waits for a transaction (rules R10, R66). -/
theorem exec_answered {i : Instr} {s t : State} (hl : s.cfg.legal = true) (h : exec i s = .next t) : Answered s t := by
  rcases exec_next h with
    ⟨-, rfl⟩ | ⟨-, ⟨o, fb, -, rfl⟩ | ⟨o, d, -, rfl⟩ | ⟨o, -, ht⟩ | ⟨o, -, hu⟩ | ⟨o, -, hu⟩⟩
  · exact .inl ⟨rfl, rfl, rfl, fun _ => rfl⟩
  · exact .inl ⟨rfl, rfl, rfl, fun _ => rfl⟩
  · exact .inl ⟨rfl, rfl, rfl, fun hne => absurd rfl hne⟩
  · obtain ⟨-, -, -, -, hans, -⟩ := construct_frame s o t ht
    exact hans
  · obtain ⟨-, -, -, -, -, -, -, -, -, hans, -⟩ := updateRectangle_frame (s := accept o s) hl rfl rfl hu
    exact hans
  · obtain ⟨-, -, -, -, -, -, -, -, -, hans, -⟩ :=
      updateRectangle_frame (s := loadWholeSurface (accept o s)) hl rfl rfl hu
    exact hans

/-- An illegal word is answered like a command, with ILLEGAL_COMMAND. -/
theorem runWord_answered {w : CommandWord} {s t : State} (hl : s.cfg.legal = true) (h : runWord w s = .next t) :
    Answered s t := by
  rcases runWord_next h with ⟨i, -, hx⟩ | ⟨e, -, rfl⟩
  · exact exec_answered hl hx
  · exact .inl ⟨rfl, rfl, rfl, fun _ => rfl⟩

/-! ## The transactions of a word cut short by reset (rules R165, R178) -/

/-- A reset inside a command leaves a first part of what the command would have issued. -/
theorem abandon_trace (k : Nat) {s t : State} {es : List TraceEntry} (ht : t.trace = s.trace ++ es) :
    ∃ n, (abandon k s t).trace = s.trace ++ es.take n := by
  have hissued : t.trace.drop s.trace.length = es := by rw [ht, List.drop_left]
  rcases abandon_cases k s t with ⟨-, h⟩ | ⟨-, h⟩
  · exact ⟨k, by rw [h, hissued]; rfl⟩
  · exact ⟨es.length, by rw [h, List.take_length]; exact ht⟩

theorem mem_dropLast_of_mem_dropLast_take {α : Type} {l : List α} {n : Nat} {a : α} (h : a ∈ (l.take n).dropLast) :
    a ∈ l.dropLast := by
  rw [List.dropLast_eq_take, List.take_take, List.length_take] at h
  rw [List.dropLast_eq_take]
  exact List.take_subset_take_left l (by omega) h

end Sys2Proof.Machine

/-! ## The obligations -/

section
open Sys2Proof Sys2Proof.Machine

/-- Settles O1: the fields put into a word are those read from it, and they name the command. -/
theorem decodeOfEncodeIsTheCommand : Obligations.DecodeOfEncodeIsTheCommand := decode_encode

/-- Settles O47: `runWord_sends` for a word that is run; of a word cut short by reset a first part of its transactions
stays (`abandon_trace`), and a wait or a reset adds none. -/
theorem stepIssuesWellShapedTransactions : Obligations.StepIssuesWellShapedTransactions := by
  intro s t h
  obtain ⟨hl, rfl | ⟨rest, hreset, rfl⟩ | ⟨w, rest, hacc, hw⟩ | ⟨w, k, rest, u, hb, hi, hu, rfl⟩⟩ := step_next h
  · exact ⟨[], t.devAddr, by simp, by simp, by simp, fun _ => rfl, .inl rfl⟩
  · exact ⟨[], s.devAddr, by simp, by simp, by simp, fun hnot => absurd hreset hnot, .inl rfl⟩
  · obtain ⟨-, -, hdev, es, htrace, hshaped, hok⟩ := runWord_sends (s := { s with inputs := rest }) hl hw
    obtain ⟨-, -, hi⟩ := hacc
    refine ⟨es, t.devAddr, htrace, hshaped, hok, fun _ => rfl, hdev.imp_right ?_⟩
    rintro ⟨o, hconstruct⟩
    exact ⟨w, o, ⟨rest, .inl hi⟩, hconstruct⟩
  · obtain ⟨-, -, hdev, es, htrace, hshaped, hok⟩ := runWord_sends (s := { s with inputs := rest }) hl hu
    obtain ⟨n, hn⟩ := abandon_trace k htrace
    refine ⟨es.take n, u.devAddr, hn, fun e he => hshaped e (List.mem_of_mem_take he),
      fun e he => hok e (mem_dropLast_of_mem_dropLast_take he),
      fun hnot => absurd (.inr (.inr ⟨w, k, rest, hb, hi⟩)) hnot, hdev.imp_right ?_⟩
    rintro ⟨o, hconstruct⟩
    exact ⟨w, o, ⟨rest, .inr ⟨k, hi⟩⟩, hconstruct⟩

/-- Settles O2: the command has the fields of the word, and a word is nothing but its fields. -/
theorem encodeOfDecodeIsTheWord : Obligations.EncodeOfDecodeIsTheWord := by
  intro w i h
  rw [encode, ← decode_eq_ok_iff.mp h, joinFields_splitWord]

/-- Settles O3: both sides say that the opcode and the reserved bits of the word are those of the row. -/
theorem wordSelectsItsOpcodeRow : Obligations.WordSelectsItsOpcodeRow := by
  intro w r hr
  rw [and_opcodeMask, opcodeRow_match hr, encode, joinFields_inj, decode_eq_ok_iff, opcodeRow_fields hr noOperands,
    opcodeRow_fields hr (fieldsOf w), ← splitWord_ops]
  obtain ⟨opc, rsv, o⟩ := splitWord w
  simp only [CommandFields.mk.injEq, and_true]

/-- Settles O4: no command has the opcode, or the decoder stops at the reserved bits. -/
theorem illegalWordsAreTheReservedOnes : Obligations.IllegalWordsAreTheReservedOnes := by
  intro w
  rw [decode_eq_error_iff, instrOfOpcode_eq_none_iff, or_assoc]
  rfl

/-- Settles O5: the ten bytes are read as the word of the command, which decodes to it. -/
theorem byteChannelReadsBackTheCommand : Obligations.ByteChannelReadsBackTheCommand := by
  intro i rest
  simp only [decodeBytes, encodeBytes, wordOfBytes_byteOfWord, decode_encode]

/-- Settles O48: an accepted word is run, and a word that is run has answered or waits (`runWord_answered`). -/
theorem exactlyOneResponseForAnAcceptedWord : Obligations.ExactlyOneResponseForAnAcceptedWord := by
  intro s t w rest hacc h
  rw [step_accepted hacc] at h
  obtain ⟨hl, -, -⟩ := hacc
  exact runWord_answered (s := { s with inputs := rest }) hl h

/-- Settles O50: both words meet the same gate, and `forget_commandBody_congr` is about what runs behind it. -/
theorem unusedFieldsHaveNoEffect : Obligations.UnusedFieldsHaveNoEffect := by
  intro i j s h
  rw [exec_eq_gated, exec_eq_gated]
  exact forget_gated_congr (runsIn_eq_of_sameUsed h) (forget_commandBody_congr s h)

/-- Settles O6: the decoder runs on each word. -/
theorem sampleWordsDecode : Obligations.SampleWordsDecode :=
  ⟨rfl, rfl, rfl, rfl, rfl, rfl, rfl, rfl, rfl, rfl, rfl, rfl, rfl, rfl⟩

/-- Settles O7: an accepted word is run, and a legal word is run as its command. -/
theorem stepRunsTheDecodedCommand : Obligations.StepRunsTheDecodedCommand := by
  intro s w rest i hacc hdec
  rw [step_accepted hacc, runWord, hdec]

/-- Settles O9: such a step finds nothing to do at its inputs (`fetch_eq_wait`). -/
theorem busyOrIdleBlockWaits : Obligations.BusyOrIdleBlockWaits := by
  intro s hl hwait
  rw [step, if_pos hl, fetch_eq_wait hwait]

end

/-! PROOFS. The statements of `spec/40_framebuffer_bit_indexer.md`: the addresses of the pixels, the three drawing
commands and the three queries (rules R80 to R89). -/

namespace Sys2Proof.Machine

/-! ## Pixels and the bits of `FB` (rules R41, R83) -/

theorem pixelIndex_eq {c : Config} {x y : Int} (hr : inRange c x y = true) :
    (pixelIndex c x y : Int) = x + y / 8 * c.width := by
  obtain ⟨hx, -, hy, -⟩ := (inRange_iff c x y).mp hr
  exact Int.toNat_of_nonneg (by positivity)

/-- Bit `b` of byte `i` is a pixel of the surface. -/
theorem inRange_of_bit {c : Config} (hl : c.legal = true) {i b : Nat} (hi : i < c.fbBytes) (hb : b < 8) :
    inRange c (i % c.width : Nat) (8 * (i / c.width) + b : Nat) = true := by
  obtain ⟨hw, -⟩ := (legal_iff c).mp hl
  have hcol : i % c.width < c.width := Nat.mod_lt _ hw
  have hpage : i / c.width < c.pages := Nat.div_lt_of_lt_mul (by rwa [Nat.mul_comm, ← fbBytes_eq hl])
  have hh := height_eq hl
  rw [inRange_iff]
  omega

/-- The pixel of a bit has that bit's byte for its index. -/
theorem pixelIndex_of_bit (c : Config) (i : Nat) {b : Nat} (hb : b < 8) :
    pixelIndex c (i % c.width : Nat) (8 * (i / c.width) + b : Nat) = i := by
  have hpage : (8 * (i / c.width) + b) / 8 = i / c.width := by omega
  rw [pixelIndex_ofNat, hpage, byteIndex, Nat.div_add_mod']

theorem pixelBit_of_bit (p : Nat) {b : Nat} (hb : b < 8) : pixelBit (8 * p + b : Nat) = b := by
  rw [pixelBit_ofNat]
  omega

/-- On a written `FB` every in-range pixel has a value. -/
theorem pixelOf_written {c : Config} (hl : c.legal = true) {fb : Memory} (hf : memWritten c.fbBytes fb = true)
    {x y : Int} (hr : inRange c x y = true) : ∃ v, pixelOf c fb x y = some v := by
  obtain ⟨old, hold⟩ := memWritten_iff.mp hf _ (pixelIndex_lt hl hr)
  exact ⟨_, by rw [pixelOf, hold]; rfl⟩

/-- An `FB` is determined by its pixels, as every bit of it is one (rule R41). -/
theorem fb_eq_of_pixelOf_eq {c : Config} (hl : c.legal = true) {fb fb' : Memory}
    (hf : memWritten c.fbBytes fb = true) (hw : Memory.wf c.fbBytes fb = true)
    (hf' : memWritten c.fbBytes fb' = true) (hw' : Memory.wf c.fbBytes fb' = true)
    (h : ∀ px py, inRange c px py = true → pixelOf c fb px py = pixelOf c fb' px py) : fb = fb' := by
  refine memory_ext hw hw' fun i => ?_
  by_cases hi : i < c.fbBytes
  · obtain ⟨v, hv⟩ := memWritten_iff.mp hf i hi
    obtain ⟨v', hv'⟩ := memWritten_iff.mp hf' i hi
    have hbits : v = v' := by
      refine BitVec.eq_of_getLsbD_eq fun b hb => ?_
      have hpixel := h _ _ (inRange_of_bit hl hi hb)
      simpa only [pixelOf, pixelIndex_of_bit c i hb, pixelBit_of_bit _ hb, hv, hv', Option.map_some,
        Option.some.injEq] using hpixel
    rw [hv, hv', hbits]
  · have hnone : ∀ {m : Memory}, Memory.wf c.fbBytes m = true → memRead m i = none := fun hm =>
      Option.eq_none_iff_forall_ne_some.mpr fun v hv => hi (memRead_lt_size hm hv)
    rw [hnone hw, hnone hw']

/-! ## The closed form of CLEAR_RECT (rule R86) -/

/-- `FB` with the bits of the rectangle at `on`: what `drawRect` leaves when it does not stop (`drawRect_written`). -/
def fillRect (c : Config) (x y w h : Int) (on : Bool) (fb : Memory) : Memory :=
  fb.map fun cell => (cell.1, applyOn on (rectMask c x y w h cell.1) cell.2)

theorem memRead_fillRect (c : Config) (x y w h : Int) (on : Bool) (fb : Memory) (i : Nat) :
    memRead (fillRect c x y w h on fb) i = (memRead fb i).map (applyOn on (rectMask c x y w h i)) :=
  memRead_map (fun i v => applyOn on (rectMask c x y w h i) v) fb i

/-- A byte that the rectangle does not meet has an empty mask. -/
theorem rectMask_eq_zero {c : Config} {x y w h : Int} {i : Nat}
    (hout : ¬(x ≤ ((i % c.width : Nat) : Int) ∧ ((i % c.width : Nat) : Int) < x + w ∧
      y < ((8 * (i / c.width) + 8 : Nat) : Int) ∧ ((8 * (i / c.width) : Nat) : Int) < y + h)) :
    rectMask c x y w h i = 0 := by
  refine BitVec.eq_of_getLsbD_eq fun k hk => ?_
  rw [getLsbD_rectMask, BitVec.ofNat_eq_ofNat, BitVec.getLsbD_zero, decide_eq_false_iff_not]
  omega

/-- CLEAR_RECT leaves a byte that the rectangle does not meet. -/
theorem memRead_fillRect_of_rectMask_eq_zero {c : Config} {x y w h : Int} {i : Nat} (on : Bool) (fb : Memory)
    (hmask : rectMask c x y w h i = 0) : memRead (fillRect c x y w h on fb) i = memRead fb i := by
  have hid : applyOn on 0 = id := funext (applyOn_zero on)
  rw [memRead_fillRect, hmask, hid, Option.map_id_apply]

/-! ## Painting a set of pixels (rules R84, R86) -/

/-- `fb'` is `fb` with the in-range pixels of `P` at `on` and every other as it was; it is canonical and written. -/
structure Painted (c : Config) (on : Bool) (P : Int → Int → Prop) (fb fb' : Memory) : Prop where
  written : memWritten c.fbBytes fb' = true
  wf : Memory.wf c.fbBytes fb' = true
  inside : ∀ px py, inRange c px py = true → P px py → pixelOf c fb' px py = some on
  outside : ∀ px py, inRange c px py = true → ¬P px py → pixelOf c fb' px py = pixelOf c fb px py

section
variable {c : Config} {on : Bool} {P Q : Int → Int → Prop} {fb fb' fb'' : Memory}

theorem Painted.pixelOf_eq (h : Painted c on P fb fb') {px py : Int} [Decidable (P px py)]
    (hr : inRange c px py = true) :
    pixelOf c fb' px py = if P px py then some on else pixelOf c fb px py := by
  split
  · exact h.inside px py hr ‹_›
  · exact h.outside px py hr ‹_›

theorem Painted.refl (hf : memWritten c.fbBytes fb = true) (hw : Memory.wf c.fbBytes fb = true)
    (hP : ∀ px py, inRange c px py = true → ¬P px py) : Painted c on P fb fb where
  written := hf
  wf := hw
  inside px py hr hp := absurd hp (hP px py hr)
  outside _ _ _ _ := rfl

/-- Painting one set after another paints both. -/
theorem Painted.trans {R : Int → Int → Prop} (h : Painted c on P fb fb') (h' : Painted c on Q fb' fb'')
    (hR : ∀ px py, R px py ↔ P px py ∨ Q px py) : Painted c on R fb fb'' where
  written := h'.written
  wf := h'.wf
  inside px py hr hp := by
    by_cases hq : Q px py
    · exact h'.inside px py hr hq
    · rw [h'.outside px py hr hq]
      exact h.inside px py hr (((hR px py).mp hp).resolve_right hq)
  outside px py hr hp := by
    obtain ⟨hnp, hnq⟩ := not_or.mp (mt (hR px py).mpr hp)
    rw [h'.outside px py hr hnq, h.outside px py hr hnp]

/-- What is painted is determined by the set. -/
theorem Painted.unique (hl : c.legal = true) (h : Painted c on P fb fb') (h' : Painted c on Q fb fb'')
    (hPQ : ∀ px py, P px py ↔ Q px py) : fb' = fb'' := by
  refine fb_eq_of_pixelOf_eq hl h.written h.wf h'.written h'.wf fun px py hr => ?_
  by_cases hp : P px py
  · rw [h.inside px py hr hp, h'.inside px py hr ((hPQ px py).mp hp)]
  · rw [h.outside px py hr hp, h'.outside px py hr (mt (hPQ px py).mpr hp)]

end

section
variable {c : Config} (hl : c.legal = true) {fb : Memory} (hf : memWritten c.fbBytes fb = true)

include hl hf in
/-- On a written `FB`, `SetPixel` ignores an out-of-range pixel and rewrites the byte of any other (rule R84). -/
theorem drawPixel_cases_of_written (x y : Int) (on : Bool) :
    (inRange c x y = false ∧ drawPixel c x y on fb = .ok fb) ∨
    (inRange c x y = true ∧ ∃ old, memRead fb (pixelIndex c x y) = some old ∧
      drawPixel c x y on fb = .ok (memWrite fb (pixelIndex c x y) (applyOn on (bitMask (pixelBit y)) old))) := by
  rcases drawPixel_cases c x y on fb with hout | hin | ⟨hr, hnone, -⟩
  · exact .inl hout
  · exact .inr hin
  · obtain ⟨v, hv⟩ := memWritten_iff.mp hf _ (pixelIndex_lt hl hr)
    cases hnone.symm.trans hv

variable (hw : Memory.wf c.fbBytes fb = true)
include hl hf hw

theorem drawPixel_painted (x y : Int) (on : Bool) :
    ∃ fb', drawPixel c x y on fb = .ok fb' ∧ Painted c on (fun px py => px = x ∧ py = y) fb fb' := by
  obtain ⟨fb', hdraw, hf', hw'⟩ := drawPixel_written hl x y on hf hw
  refine ⟨fb', hdraw, ?_⟩
  rcases drawPixel_cases_of_written hl hf x y on with ⟨hout, hok⟩ | ⟨hin, old, hold, hok⟩
  · obtain rfl : fb = fb' := Except.ok.inj (hok.symm.trans hdraw)
    refine .refl hf hw ?_
    rintro px py hr ⟨rfl, rfl⟩
    exact absurd hr (by simp [hout])
  · obtain rfl := Except.ok.inj (hok.symm.trans hdraw)
    exact ⟨hf', hw', fun px py hr hp => (pixelOf_drawPixel hin hold hr).trans (if_pos hp),
      fun px py hr hp => (pixelOf_drawPixel hin hold hr).trans (if_neg hp)⟩

/-- The inner loop of rule R86 paints a row. -/
theorem drawRow_painted (y : Int) (on : Bool) (n : Nat) (x : Int) :
    ∃ fb', drawRow c y on n x fb = .ok fb' ∧
      Painted c on (fun px py => (x ≤ px ∧ px < x + n) ∧ py = y) fb fb' := by
  induction n generalizing x fb with
  | zero => exact ⟨fb, rfl, .refl hf hw (by omega)⟩
  | succ n ih =>
    obtain ⟨fb₁, hpixel, hp₁⟩ := drawPixel_painted hl hf hw x y on
    obtain ⟨fb₂, hrow, hp₂⟩ := ih hp₁.written hp₁.wf (x + 1)
    exact ⟨fb₂, by rw [drawRow, hpixel, ← hrow], hp₁.trans hp₂ (by omega)⟩

/-- The two loops of rule R86 paint the rectangle. -/
theorem drawRectLoop_painted (x : Int) (w : Nat) (on : Bool) (h : Nat) (y : Int) :
    ∃ fb', drawRectLoop c x w on h y fb = .ok fb' ∧
      Painted c on (fun px py => (x ≤ px ∧ px < x + w) ∧ y ≤ py ∧ py < y + h) fb fb' := by
  induction h generalizing y fb with
  | zero => exact ⟨fb, rfl, .refl hf hw (by omega)⟩
  | succ h ih =>
    obtain ⟨fb₁, hrow, hp₁⟩ := drawRow_painted hl hf hw y on w x
    obtain ⟨fb₂, hrest, hp₂⟩ := ih hp₁.written hp₁.wf (y + 1)
    exact ⟨fb₂, by rw [drawRectLoop, hrow, ← hrest], hp₁.trans hp₂ (by omega)⟩

/-- The closed form of CLEAR_RECT paints the rectangle. -/
theorem fillRect_painted (x y w h : Int) (on : Bool) :
    Painted c on (fun px py => x ≤ px ∧ px < x + w ∧ y ≤ py ∧ py < y + h) fb (fillRect c x y w h on fb) where
  written := memWritten_map (fun i v => applyOn on (rectMask c x y w h i) v) hf
  wf := wf_map (fun i v => applyOn on (rectMask c x y w h i) v) hw
  inside px py hr hp := by
    obtain ⟨v, hv⟩ := pixelOf_written hl hf hr
    simp only [fillRect, pixelOf_drawRect c x y w h on fb px py hr, hv, Option.map_some, if_pos hp]
  outside px py hr hp := by
    simp only [fillRect, pixelOf_drawRect c x y w h on fb px py hr, if_neg hp, Option.map_id']

end

/-! ## The commands -/

/-- In the one `STATE` it is callable in, a command runs its body (rule R150). -/
theorem exec_of_mode_eq {i : Instr} {s : State} (hm : s.mode = runsIn i) :
    exec i s = commandBody i (accept i.operands s) := by
  rw [exec_eq_gated, gated_eq, if_pos ((callable_iff i s.mode).mpr hm)]

/-- GET_PIXEL of an in-range pixel answers its value (rule R87). -/
theorem execGetPixel_inRange {s : State} {o : Operands} {v : Bool} (hm : s.mode = .ready)
    (hr : inRange s.cfg o.x.toInt o.y.toInt = true) (hv : pixelOf s.cfg s.fb o.x.toInt o.y.toInt = some v) :
    exec (.getPixel o) s = .next (s.completed o .ok ((BitVec.ofBool v).setWidth 16)) := by
  obtain ⟨byte, hbyte, hbit⟩ := Option.map_eq_some_iff.mp hv
  rw [execGetPixel_eq hm]
  simp [readPixel, hr, hbyte, hbit]

/-- GET_PIXEL of an out-of-range pixel answers 0 (rule R87). -/
theorem execGetPixel_outOfRange {s : State} {o : Operands} (hm : s.mode = .ready)
    (hr : inRange s.cfg o.x.toInt o.y.toInt = false) :
    exec (.getPixel o) s = .next (s.completed o .ok 0) := by
  rw [execGetPixel_eq hm]
  simp [readPixel, hr]

/-- SET_PIXEL answers (OK, 0) with the `FB` that `SetPixel` leaves (rule R85). -/
theorem execSetPixel_ok {s : State} {o : Operands} {fb : Memory} (hm : s.mode = .ready)
    (hdraw : drawPixel s.cfg o.x.toInt o.y.toInt o.on s.fb = .ok fb) :
    exec (.setPixel o) s = .next { s.completed o .ok 0 with fb := fb } := by
  rw [execSetPixel_eq hm, hdraw]
  rfl

/-- CLEAR_RECT answers (OK, 0) with the `FB` of the closed form (rule R86). -/
theorem execClearRect_ok {s : State} {o : Operands} (hs : s.Ready) :
    exec (.clearRect o) s = .next { s.completed o .ok 0 with
      fb := fillRect s.cfg o.x.toInt o.y.toInt o.w.toInt o.h.toInt o.on s.fb } := by
  rw [execClearRect_eq hs.mode, drawRect_written _ _ _ _ _ hs.written]
  rfl

/-- SET_PIXEL in READY paints its pixel and answers (OK, 0) (rules R84, R85). -/
theorem execSetPixel_painted {s : State} (hs : s.Ready) (o : Operands) :
    ∃ fb, exec (.setPixel o) s = .next { s.completed o .ok 0 with fb := fb } ∧
      Painted s.cfg o.on (fun px py => px = o.x.toInt ∧ py = o.y.toInt) s.fb fb := by
  obtain ⟨fb, hdraw, hp⟩ := drawPixel_painted hs.legal hs.written hs.wf o.x.toInt o.y.toInt o.on
  exact ⟨fb, execSetPixel_ok hs.mode hdraw, hp⟩

end Sys2Proof.Machine

/-! ## The obligations -/

section
open Sys2Proof Sys2Proof.Machine

/-- Settles O21: a written `FB` leaves the two cases of `SetPixel` that do not stop. -/
theorem setPixelWritesOneBit : Obligations.SetPixelWritesOneBit := by
  intro s o hs
  rw [← inRange_iff]
  rcases drawPixel_cases_of_written hs.legal hs.written o.x.toInt o.y.toInt o.on with
    ⟨hout, hdraw⟩ | ⟨hin, old, hold, hdraw⟩
  · exact ⟨_, execSetPixel_ok hs.mode hdraw, fun hin => absurd hin (by simp [hout]), fun _ => rfl⟩
  · refine ⟨_, execSetPixel_ok hs.mode hdraw, fun _ => ⟨⟨old, hold, memRead_memWrite_same _ _ _⟩, ?_⟩, absurd hin⟩
    exact fun a ha => memRead_memWrite_other _ _ ha

/-- Settles O22: SET_PIXEL paints its pixel. -/
theorem setPixelLeavesEveryOtherPixel : Obligations.SetPixelLeavesEveryOtherPixel := by
  intro s t o hs _ h x y hr
  obtain ⟨fb, hexec, hp⟩ := execSetPixel_painted hs o
  obtain rfl := Host.Outcome.next.inj (hexec.symm.trans h)
  exact hp.pixelOf_eq hr

/-- Settles O23: GET_PIXEL answers the value of the pixel, which SET_PIXEL has painted. -/
theorem getPixelReadsWhatSetPixelWrote : Obligations.GetPixelReadsWhatSetPixelWrote := by
  intro s o p hs hr hx hy
  obtain ⟨fb, hset, hp⟩ := execSetPixel_painted hs o
  have hon : pixelOf s.cfg fb o.x.toInt o.y.toInt = some o.on := hp.inside _ _ hr ⟨rfl, rfl⟩
  rw [← hx, ← hy] at hr hon
  have hget := execGetPixel_inRange (s := { s.completed o .ok 0 with fb := fb }) hs.mode hr hon
  refine ⟨_, _, hset, hget, rfl, ?_⟩
  cases o.on <;> rfl

/-- Settles O24: the closed form paints the rectangle, and the mask of a byte outside it is empty. -/
theorem clearRectWritesTheRectangle : Obligations.ClearRectWritesTheRectangle := by
  intro s o hs
  exact ⟨_, execClearRect_ok hs, fun px py hr => (fillRect_painted hs.legal hs.written hs.wf ..).pixelOf_eq hr,
    fun a hout => memRead_fillRect_of_rectMask_eq_zero _ _ (rectMask_eq_zero hout)⟩

/-- Settles O25: the loops and the closed form paint the same pixels, and pixels determine `FB`. -/
theorem clearRectIsThePixelLoop : Obligations.ClearRectIsThePixelLoop := by
  intro s o hs
  obtain ⟨fb, hloop, hp⟩ := drawRectLoop_painted hs.legal hs.written hs.wf o.x.toInt o.w.toInt.toNat o.on
    o.h.toInt.toNat o.y.toInt
  have hrect := fillRect_painted hs.legal hs.written hs.wf o.x.toInt o.y.toInt o.w.toInt o.h.toInt o.on
  obtain rfl := hp.unique hs.legal hrect (by omega)
  exact ⟨_, hloop, execClearRect_ok hs⟩

/-- Settles O26: in range the answer is the value of the pixel as a 16-bit number, out of range it is 0. -/
theorem getPixelAnswersThePixel : Obligations.GetPixelAnswersThePixel := by
  intro s o hs
  cases hr : inRange s.cfg o.x.toInt o.y.toInt with
  | false => exact ⟨0, execGetPixel_outOfRange hs.mode hr, by decide, nofun, fun _ => rfl⟩
  | true =>
    obtain ⟨v, hv⟩ := pixelOf_written hs.legal hs.written hr
    refine ⟨_, execGetPixel_inRange hs.mode hr hv, ?_, fun _ => ?_, nofun⟩
    · cases v <;> decide
    · rw [hv]
      cases v <;> rfl

/-- Settles O27: the address of an in-range pixel, that it determines the pixel, and the pixel of a given bit. -/
theorem pixelAddressIsABijection : Obligations.PixelAddressIsABijection := by
  intro c hl
  refine ⟨fun x y hr => ⟨pixelIndex_eq hr, Int.toNat_of_nonneg (by omega), pixelIndex_lt hl hr, pixelBit_lt y⟩,
    fun x y x' y' hr hr' hi hb => pixel_inj hr hr' hi hb, ?_⟩
  intro i b hi hb
  exact ⟨inRange_of_bit hl hi hb, pixelIndex_of_bit c i hb, pixelBit_of_bit _ hb⟩

/-- Settles O28: stopped by the gate, drawing or answering a query, these fields are left alone; the other commands
are none of the six. -/
theorem framebufferCommandsStayOffTheBus : Obligations.FramebufferCommandsStayOffTheBus := by
  intro i o s t hi h
  rcases exec_next h with
    ⟨-, rfl⟩ | ⟨-, ⟨o', fb, -, rfl⟩ | ⟨o', d, -, rfl⟩ | ⟨o', rfl, -⟩ | ⟨o', rfl, -⟩ | ⟨o', rfl, -⟩⟩
  · exact ⟨rfl, rfl, rfl, rfl, rfl, rfl, rfl, rfl⟩
  · exact ⟨rfl, rfl, rfl, rfl, rfl, rfl, rfl, rfl⟩
  · exact ⟨rfl, rfl, rfl, rfl, rfl, rfl, rfl, rfl⟩
  · simp at hi
  · simp at hi
  · simp at hi

/-- Settles O18: what `memZeros` reads at every index. -/
theorem clearZeroFillsTheFramebuffer : Obligations.ClearZeroFillsTheFramebuffer := by
  intro s o hm
  exact ⟨_, exec_of_mode_eq hm, wf_memZeros _, memRead_memZeros _⟩

/-- Settles O19: a legal width fits the 16 bits of the answer. -/
theorem getWidthAnswersTheWidth : Obligations.GetWidthAnswersTheWidth := by
  intro s o hl hm
  obtain ⟨-, hwidth, -⟩ := (legal_iff s.cfg).mp hl
  exact ⟨_, (BitVec.toNat_ofNat ..).trans (Nat.mod_eq_of_lt (by omega)), exec_of_mode_eq hm⟩

/-- Settles O20: a legal height fits the 16 bits of the answer. -/
theorem getHeightAnswersTheHeight : Obligations.GetHeightAnswersTheHeight := by
  intro s o hl hm
  obtain ⟨-, -, -, hheight, -⟩ := (legal_iff s.cfg).mp hl
  exact ⟨_, (BitVec.toNat_ofNat ..).trans (Nat.mod_eq_of_lt (by omega)), exec_of_mode_eq hm⟩

end

/-! PROOFS. The statement of `spec/41_register_command_sequencer.md`: the three ends of CONSTRUCT that answer (rules
R100, R106). -/

namespace Sys2Proof.Machine

/-- Outside the one `STATE` it is callable in, a command only answers BAD_STATE (rule R150). -/
theorem exec_of_mode_ne {i : Instr} {s : State} (hm : s.mode ≠ runsIn i) :
    exec i s = .next (s.completed i.operands .badState 0) := by
  rw [exec_eq_gated, gated_eq, if_neg (mt (callable_iff i s.mode).mp hm)]

/-- CONSTRUCT in UNINIT with all its writes answered `ok` (rules R100, R106). -/
theorem execConstruct_allOk {s : State} {o : Operands} (hm : s.mode = .uninit) (hok : s.AllOk s.cfg.initLen) :
    exec (.construct o) s =
      .next { ((s.completed o .ok 0).spent s.cfg.initLen).logged
                (okEntries (initTxs s.cfg (constructAddr s.cfg o))) with
              mode := .ready, devAddr := constructAddr s.cfg o, fb := memZeros s.cfg.fbBytes,
              seqIdx := s.cfg.initLen } := by
  have hsent := sendInit_allOk (s := beginConstruct (accept o s)) hok
  rw [show (beginConstruct (accept o s)).seqIdx + s.cfg.initSeq.length = s.cfg.initLen from Nat.zero_add _,
    initTxs_beginConstruct] at hsent
  rw [execConstruct_eq hm, hsent]
  rfl

/-- CONSTRUCT in UNINIT whose k-th write is the first answered `err` (rules R100, R106). -/
theorem execConstruct_err {s : State} {o : Operands} {k : Nat} (hm : s.mode = .uninit) (hk : k < s.cfg.initLen)
    (hok : s.AllOk k) (hka : s.answerAt k = .err) :
    exec (.construct o) s =
      .next { ((s.completed o .transportError 0).spent (k + 1)).logged
                (endedEntries (initTxs s.cfg (constructAddr s.cfg o)) k .err) with
              mode := .failed, devAddr := constructAddr s.cfg o, fb := memZeros s.cfg.fbBytes, seqIdx := k } := by
  have hfailed := sendInit_ended (s := beginConstruct (accept o s)) hk hok hka (by decide)
  rw [if_pos rfl, show (beginConstruct (accept o s)).seqIdx + k = k from Nat.zero_add k,
    initTxs_beginConstruct] at hfailed
  rw [execConstruct_eq hm, hfailed]
  rfl

end Sys2Proof.Machine

/-! ## The obligation -/

section
open Sys2Proof Sys2Proof.Machine

/-- Settles O30: the zero-filled `FB` is the one both ends of the loop share; the gate answers elsewhere. -/
theorem constructReadyOrFailed : Obligations.ConstructReadyOrFailed := by
  intro s o
  refine ⟨fun hm => ⟨memZeros s.cfg.fbBytes, memRead_memZeros _, ?_, ?_⟩,
    exec_of_mode_ne (i := .construct o)⟩
  · exact execConstruct_allOk hm
  · intro k hk hok hka
    exact execConstruct_err hm hk hok hka

end

/-! PROOFS. The statements of `spec/42_display_window_controller.md`: the validation and the window of an update
rectangle, and what UPDATE_RECT and UPDATE_FULL send (rules R115 to R119, R136, R154). -/

namespace Sys2Proof.Machine

/-! ## The window of an accepted rectangle (rules R117 to R119) -/

/-- `Reject` is the disjunction of its eight tests (rule R117). -/
theorem rejects_eq_true_iff (c : Config) (x y w h : Int) :
    rejects c x y w h = true ↔
      x < 0 ∨ x > c.width ∨ y < 0 ∨ y > c.height ∨ w ≤ 0 ∨ h ≤ 0 ∨ x + w > c.width ∨ y + h > c.height := by
  simp only [rejects, Bool.or_eq_true, decide_eq_true_eq, or_assoc]

/-- The boundaries of an accepted rectangle are those of rule R118 over the integers: none of them is negative. -/
theorem windowBoundaries_eq {c : Config} {x y w h : Int} (ha : rejects c x y w h = false) :
    (startColOf x : Int) = x ∧ (endColOf x w : Int) = x + w - 1 ∧ (startPageOf y : Int) = y / 8 ∧
    (endPageOf y h : Int) = (y + h - 1) / 8 := by
  obtain ⟨hx, hy, hw, hh, -, -⟩ := (rejects_eq_false_iff c x y w h).mp ha
  simp only [startColOf, endColOf, startPageOf, endPageOf]
  omega

/-- The window of an accepted rectangle has at most the bytes of `FB` (rule R119). -/
theorem windowSize_le {c : Config} (hl : c.legal = true) {x y w h : Int} (ha : rejects c x y w h = false) :
    (endPageOf y h - startPageOf y + 1) * (endColOf x w - startColOf x + 1) ≤ c.fbBytes := by
  obtain ⟨-, hec, -, -, hep, -, -⟩ := window_range hl ha
  rw [fbBytes_eq hl]
  exact Nat.mul_le_mul (by omega) (by omega)

/-! ## The whole surface (rule R115) -/

/-- UPDATE_FULL in READY is UPDATE_RECT of the whole surface. -/
theorem execUpdateFull_eq_updateRect {s : State} (hm : s.mode = .ready) (o : Operands) :
    exec (.updateFull o) s = exec (.updateRect (wholeSurface s.cfg o)) s := by
  rw [execUpdateFull_eq hm, execUpdateRect_eq hm]
  rfl

/-- The operands of UPDATE_FULL, read as signed numbers, are 0, 0, W and H: a legal size is far below 2^15. -/
theorem wholeSurface_toInt {c : Config} (hl : c.legal = true) (o : Operands) :
    (wholeSurface c o).x.toInt = 0 ∧ (wholeSurface c o).y.toInt = 0 ∧ (wholeSurface c o).w.toInt = c.width ∧
    (wholeSurface c o).h.toInt = c.height := by
  obtain ⟨-, hw, -, hh, -⟩ := (legal_iff c).mp hl
  have hcoord : ∀ n : Nat, n ≤ 2048 → (BitVec.ofNat 16 n).toInt = n := by
    intro n hn
    rw [BitVec.toInt_eq_toNat_of_lt (by rw [BitVec.toNat_ofNat]; omega), BitVec.toNat_ofNat]
    omega
  exact ⟨rfl, rfl, hcoord _ (by omega), hcoord _ hh⟩

theorem rejects_wholeSurface {c : Config} (hl : c.legal = true) : rejects c 0 0 c.width c.height = false := by
  obtain ⟨hw, -, hh, -⟩ := (legal_iff c).mp hl
  rw [rejects_eq_false_iff]
  omega

/-- The last column and the last page of the whole surface (rules R115, R118). -/
theorem wholeSurface_window {c : Config} (hl : c.legal = true) :
    endColOf 0 c.width = c.width - 1 ∧ endPageOf 0 c.height = c.pages - 1 := by
  have hheight := height_eq hl
  simp only [endColOf, endPageOf]
  omega

/-- Where the streaming phase ends `COL` and `PAGE`: one past the last of the surface (rule R130). -/
theorem wholeSurface_past {c : Config} (hl : c.legal = true) :
    endColOf 0 c.width + 1 = c.width ∧ endPageOf 0 c.height + 1 = c.pages := by
  obtain ⟨hw, -, hh, -⟩ := (legal_iff c).mp hl
  have hheight := height_eq hl
  obtain ⟨hec, hep⟩ := wholeSurface_window hl
  omega

theorem streamLength_wholeSurface {c : Config} (hl : c.legal = true) :
    streamLength 0 c.width c.height = c.fbBytes := by
  obtain ⟨-, hep⟩ := wholeSurface_past hl
  rw [streamLength, show startPageOf 0 = 0 from rfl, Nat.sub_zero, hep, fbBytes_eq hl, Int.toNat_natCast]

/-- The k-th byte of the whole surface has index k: its rows are as long as those of `FB` (rules R46, R133). -/
theorem streamIndex_wholeSurface (c : Config) (k : Nat) : streamIndex c 0 0 c.width k = k := by
  rw [streamIndex, Int.toNat_natCast, show startPageOf 0 = 0 from rfl, show startColOf 0 = 0 from rfl, Nat.zero_add,
    Nat.add_zero, Nat.div_add_mod']

/-- The byte stream of the whole surface is `FB` in index order (rule R115). -/
theorem streamBytes_wholeSurface {s : State} (hl : s.cfg.legal = true) :
    streamBytes s 0 0 s.cfg.width s.cfg.height = wholeFramebuffer s := by
  simp only [streamBytes, wholeFramebuffer, streamLength_wholeSurface hl, streamIndex_wholeSurface]

/-- What UPDATE_FULL sends: the six bytes of its window, then the chunks of `FB` (rules R104, R115). -/
theorem updateTxs_wholeSurface {s : State} (hl : s.cfg.legal = true) :
    updateTxs s 0 0 s.cfg.width s.cfg.height =
      [s.cfg.cmdSetColumnAddr, 0, BitVec.ofNat 8 (s.cfg.width - 1), s.cfg.cmdSetPageAddr, 0,
        BitVec.ofNat 8 (s.cfg.pages - 1)].map (fun v => .byte s.devAddr s.cfg.regCommand v) ++
      chunkTxs s (wholeFramebuffer s) := by
  obtain ⟨hec, hep⟩ := wholeSurface_window hl
  rw [updateTxs, windowTxs, hec, hep, streamBytes_wholeSurface hl]
  rfl

/-- The window registers of the whole surface (rules R115, R118). -/
theorem windowed_wholeSurface {c : Config} (hl : c.legal = true) (s : State) :
    s.windowed 0 0 c.width c.height =
      { s with startCol := 0, endCol := BitVec.ofNat 8 (c.width - 1),
               startPage := 0, endPage := BitVec.ofNat 8 (c.pages - 1) } := by
  obtain ⟨hec, hep⟩ := wholeSurface_window hl
  rw [State.windowed, hec, hep]
  rfl

end Sys2Proof.Machine

/-! ## The obligations -/

section
open Sys2Proof Sys2Proof.Machine

/-- Settles O34: `execUpdateRect_allOk`, its transactions counted by rule R122 c. -/
theorem updateRectSendsItsWindow : Obligations.UpdateRectSendsItsWindow := by
  intro s o hs ha hok
  rw [← updateTxs_length s o.x.toInt]
  exact execUpdateRect_allOk hs ha hok

/-- Settles O36: of all that `updateFlow_ended` says of the first answer that is not `ok`, the case of an `err`. -/
theorem updateEndsAtItsFirstFailure : Obligations.UpdateEndsAtItsFirstFailure := by
  intro s o k hs ha hk hok hka
  rw [← updateTxs_length s o.x.toInt] at hk
  obtain ⟨m, i, p, c, -, hwindow, hdata, hflow⟩ :=
    updateFlow_ended (s := s.loaded o) hs.legal hs.written ha hk hok hka (by decide)
  refine ⟨m, i, p, c, ?_, hwindow, fun h6 => ?_⟩
  · rw [execUpdateRect_accepted hs.mode ha, hflow]
    rfl
  · obtain ⟨hread, hlen, -⟩ := hdata h6
    exact ⟨hlen, hread⟩

/-- Settles O39: UPDATE_FULL is an accepted UPDATE_RECT of the whole surface, whose window and byte stream are the
surface's boundaries and `FB`. -/
theorem updateFullSendsTheWholeFramebuffer : Obligations.UpdateFullSendsTheWholeFramebuffer := by
  intro s o hs hok
  obtain ⟨hx, hy, hw, hh⟩ := wholeSurface_toInt hs.legal o
  obtain ⟨hcol, hpage⟩ := wholeSurface_past hs.legal
  have hsent := updateRectSendsItsWindow s (wholeSurface s.cfg o) hs
  rw [hx, hy, hw, hh, streamLength_wholeSurface hs.legal, windowed_wholeSurface hs.legal,
    updateTxs_wholeSurface hs.legal, hcol, hpage] at hsent
  obtain ⟨m, -, hexec⟩ := hsent (rejects_wholeSurface hs.legal) hok
  exact ⟨m, (execUpdateFull_eq_updateRect hs.mode o).trans hexec⟩

/-- Settles O33: the window registers hold the boundaries of rule R118, whose ranges `window_range` gives. -/
theorem windowLiesInsideTheFramebuffer : Obligations.WindowLiesInsideTheFramebuffer := by
  intro s hl ha
  obtain ⟨hsc, hec, hsp, hep⟩ := windowRegisters_toNat hl ha
  obtain ⟨hx, hxw, hy, hyh⟩ := windowBoundaries_eq ha
  obtain ⟨hcols, hcol, -, hpages, hpage, -, -⟩ := window_range hl ha
  simp only [computeWindow_eq ha, windowed_startCol, windowed_endCol, windowed_startPage, windowed_endPage, hsc, hec,
    hsp, hep]
  refine ⟨hx, hxw, hy, hyh, hcols, by omega, hpages, by omega, by omega, ?_, windowSize_le hl ha, ?_⟩
  · exact Nat.mul_pos (Nat.succ_pos _) (Nat.succ_pos _)
  · intro p c _ hp _ hc
    exact byteIndex_lt hl (by omega : p < _) (by omega : c < _)

/-- Settles O32: the eight tests, and the form over accepted rectangles that every update proof uses. -/
theorem rejectIsTheEightTests : Obligations.RejectIsTheEightTests := by
  intro c x y w h
  exact ⟨rejects_eq_true_iff c x y w h, rejects_eq_false_iff c x y w h⟩

/-- Settles O38: `wholeSurface` is the statement's record of operand fields. -/
theorem updateFullIsUpdateRectOfTheSurface : Obligations.UpdateFullIsUpdateRectOfTheSurface := by
  intro s o hm
  exact execUpdateFull_eq_updateRect hm o

end

/-! PROOFS. The statement of `spec/43_chunked_transfer_engine.md`: the chunks of a successful update (rule R134). -/

namespace Sys2Proof.Machine

/-! ## The number of the chunks and their lengths -/

/-- `chunkCount` is the ceiling of `n / MTS`: all chunks but one are too few for `n` bytes, all of them are enough. -/
theorem chunkCount_bounds {mts n : Nat} (hm : 1 ≤ mts) (hn : 1 ≤ n) :
    1 ≤ chunkCount mts n ∧ (chunkCount mts n - 1) * mts < n ∧ n ≤ chunkCount mts n * mts := by
  have hpos : 1 ≤ chunkCount mts n := Nat.div_pos (by omega) hm
  have hle : chunkCount mts n * mts ≤ n + mts - 1 := Nat.div_mul_le_self _ _
  have hlt : n + mts - 1 < chunkCount mts n * mts + mts := Nat.lt_div_mul_add hm
  have hsub : (chunkCount mts n - 1) * mts = chunkCount mts n * mts - mts := Nat.sub_one_mul _ _
  omega

theorem chunk_length (mts : Nat) (bs : List Byte) (j : Nat) :
    (chunk mts bs j).length = min mts (bs.length - j * mts) := by
  rw [chunk, List.length_take, List.length_drop]

theorem chunks_getElem? {mts : Nat} {bs : List Byte} {j : Nat} (hj : j < chunkCount mts bs.length) :
    (chunks mts bs)[j]? = some (chunk mts bs j) := by
  rw [chunks, List.getElem?_map, List.getElem?_range hj, Option.map_some]

/-- Every chunk but the last is full (rule R134). -/
theorem chunks_getElem?_length {mts : Nat} (hm : 1 ≤ mts) {bs : List Byte} (hb : 1 ≤ bs.length) {j : Nat}
    (hj : j + 1 < chunkCount mts bs.length) : (chunks mts bs)[j]?.map List.length = some mts := by
  obtain ⟨-, hfull, -⟩ := chunkCount_bounds hm hb
  have hend : (j + 1) * mts ≤ (chunkCount mts bs.length - 1) * mts := Nat.mul_le_mul_right mts (by omega)
  rw [Nat.succ_mul] at hend
  rw [chunks_getElem? (by omega), Option.map_some, chunk_length, Nat.min_eq_left (by omega)]

/-- The last chunk has what the full ones leave (rule R134). -/
theorem chunks_getLast?_length {mts : Nat} (hm : 1 ≤ mts) {bs : List Byte} (hb : 1 ≤ bs.length) :
    (chunks mts bs).getLast?.map List.length = some (bs.length - (chunkCount mts bs.length - 1) * mts) := by
  obtain ⟨hpos, -, hall⟩ := chunkCount_bounds hm hb
  have hsub : (chunkCount mts bs.length - 1) * mts = chunkCount mts bs.length * mts - mts := Nat.sub_one_mul _ _
  rw [List.getLast?_eq_getElem?, chunks_length, chunks_getElem? (by omega), Option.map_some, chunk_length,
    Nat.min_eq_right (by omega)]

/-! ## The buffer writes of an update -/

theorem payloadsOf_append (es fs : List TraceEntry) : payloadsOf (es ++ fs) = payloadsOf es ++ payloadsOf fs :=
  List.filterMap_append

/-- The window phase writes no buffer: its six transactions are single bytes (rule R104). -/
theorem payloadsOf_windowTxs (s : State) (x y w h : Int) : payloadsOf (okEntries (windowTxs s x y w h)) = [] := rfl

theorem payloadsOf_chunkTxs (s : State) (bytes : List Byte) :
    payloadsOf (okEntries (chunkTxs s bytes)) = chunks s.cfg.mts bytes := by
  rw [payloadsOf, okEntries, chunkTxs, List.map_map, List.filterMap_map]
  exact List.filterMap_some

/-- The buffer writes of a successful update carry the chunks of its byte stream (rules R122 c, R134). -/
theorem payloadsOf_updateTxs (s : State) (x y w h : Int) :
    payloadsOf (okEntries (updateTxs s x y w h)) = chunks s.cfg.mts (streamBytes s x y w h) := by
  have hsplit : okEntries (updateTxs s x y w h) =
      okEntries (windowTxs s x y w h) ++ okEntries (chunkTxs s (streamBytes s x y w h)) := List.map_append
  rw [hsplit, payloadsOf_append, payloadsOf_windowTxs, payloadsOf_chunkTxs, List.nil_append]

/-- An accepted rectangle has at least one byte to stream, so the data phase is never empty (rule R119). -/
theorem streamLength_pos {c : Config} {x y w h : Int} (ha : rejects c x y w h = false) : 1 ≤ streamLength y w h := by
  obtain ⟨-, -, hw, -⟩ := (rejects_eq_false_iff c x y w h).mp ha
  exact Nat.mul_pos (Nat.succ_pos _) (by omega)

end Sys2Proof.Machine

/-! ## The obligation -/

section
open Sys2Proof Sys2Proof.Machine

/-- Settles O35: the payloads in the trace are the chunks of the byte stream (`payloadsOf_updateTxs`), which
`chunkCount_bounds` counts and whose lengths and concatenation the lemmas about `chunks` give. -/
theorem chunksOfASuccessfulUpdate : Obligations.ChunksOfASuccessfulUpdate := by
  intro s t o hs ha hok hexec N ps
  obtain ⟨m, -, hnext⟩ := execUpdateRect_allOk hs ha hok
  obtain rfl := Host.Outcome.next.inj (hnext.symm.trans hexec)
  obtain ⟨-, -, -, -, -, hmts, -⟩ := (legal_iff s.cfg).mp hs.legal
  have hps : ps = chunks s.cfg.mts (streamBytes s o.x.toInt o.y.toInt o.w.toInt o.h.toInt) := by
    simp only [ps, streamed_trace, logged_trace, spent_trace, windowed_trace, completed_trace, List.drop_left,
      payloadsOf_updateTxs]
  have hN : N = (streamBytes s o.x.toInt o.y.toInt o.w.toInt o.h.toInt).length := (streamBytes_length ..).symm
  have hpos : 1 ≤ N := streamLength_pos ha
  rw [hN] at hpos
  obtain ⟨hone, hmore, henough⟩ := chunkCount_bounds hmts hpos
  rw [hps, hN, chunks_length]
  exact ⟨hone, hmore, henough, fun _ hj => chunks_getElem?_length hmts hpos hj, chunks_getLast?_length hmts hpos,
    chunks_flatten hmts _, rfl⟩

end

/-! PROOFS. The statements of `spec/60_exceptions.md`: illegal words, the state gate, the errors and their order, and
which steps change STATE (rules R146, R147, R149 to R151, R153). -/

namespace Sys2Proof.Machine

/-! ## What a status says of the command that answered it -/

/-- What the status of an answered command says of it, `s` being the state before and `t` the state after (rules R146,
R147, R150). -/
def StatusMeans (i : Instr) (s t : State) : Status → Prop
  | .ok => True
  | .invalidArgument => ∃ o, i = .updateRect o
  | .transportError =>
    (∃ o, i = .construct o ∨ i = .updateFull o ∨ i = .updateRect o) ∧
      t.trace.getLast?.map TraceEntry.answer = some .err
  | .badState => s.mode ≠ runsIn i
  | .illegalCommand => False

/-- The answers an update can give: OK, INVALID_ARGUMENT if its rectangle is rejected, TRANSPORT_ERROR if its last
transaction was answered `err` (rules R116, R146, R147). -/
theorem updateRectangle_status {s t : State} (hl : s.cfg.legal = true) (hb : s.busy = true)
    (h : updateRectangle s = .next t) (ht : t.busy = false) :
    t.respStatus = .ok ∨
    (rejects s.cfg s.opx.toInt s.opy.toInt s.opw.toInt s.oph.toInt = true ∧ t.respStatus = .invalidArgument) ∨
    (t.respStatus = .transportError ∧ t.trace.getLast?.map TraceEntry.answer = some .err) := by
  rcases updateRectangle_next hl h with
    ⟨hrej, rfl⟩ | ⟨-, ⟨s', -, rfl⟩ | ⟨s', ⟨es, u, hsent, -⟩, rfl⟩ | ⟨es, u, hsent, -⟩⟩
  · exact .inr (.inl ⟨hrej, rfl⟩)
  · exact .inl rfl
  · refine .inr (.inr ⟨rfl, ?_⟩)
    rw [raise_eq, respond_trace, hsent.trace]
    simp
  · obtain ⟨-, -, -, hwaits, -⟩ := hsent.keeps
    exact absurd (ht.symm.trans (hwaits.trans hb)) (by decide)

/-- The answers CONSTRUCT can give when it runs (rules R100, R147). -/
theorem construct_status {s t : State} {o : Operands} (h : t = sendInit s.cfg.initSeq (beginConstruct (accept o s)))
    (ht : t.busy = false) :
    t.respStatus = .ok ∨
    (t.respStatus = .transportError ∧ t.trace.getLast?.map TraceEntry.answer = some .err) := by
  rcases sendInit_cases (accept o s) with ⟨-, hend⟩ | ⟨k, hk, -, -, hend⟩ | ⟨k, -, -, -, hend⟩
  · rw [h.trans hend]
    exact .inl rfl
  · rw [h.trans hend]
    refine .inr ⟨rfl, ?_⟩
    rw [raise_eq, respond_trace, logged_trace, List.getLast?_append,
      endedEntries_getLast .err (by simpa [Config.initLen] using hk)]
    rfl
  · rw [h.trans hend] at ht
    cases ht

/-- The rectangle UPDATE_FULL loads is never rejected (rules R115, R117). -/
theorem wholeSurface_accepted {c : Config} (hl : c.legal = true) (o : Operands) :
    rejects c (wholeSurface c o).x.toInt (wholeSurface c o).y.toInt (wholeSurface c o).w.toInt
      (wholeSurface c o).h.toInt = false := by
  obtain ⟨hx, hy, hw, hh⟩ := wholeSurface_toInt hl o
  rw [hx, hy, hw, hh, rejects_wholeSurface hl]

/-- Every answer of a command has its reason: the errors of rules R146, R147 and R150 come from nothing else. -/
theorem exec_statusMeans {i : Instr} {s t : State} (hl : s.cfg.legal = true) (h : exec i s = .next t)
    (ht : t.busy = false) : StatusMeans i s t t.respStatus := by
  rcases exec_next h with
    ⟨hc, rfl⟩ | ⟨-, ⟨o, fb, -, rfl⟩ | ⟨o, d, -, rfl⟩ | ⟨o, rfl, hsend⟩ | ⟨o, rfl, hu⟩ | ⟨o, rfl, hu⟩⟩
  · exact fun hm => Bool.false_ne_true (hc.symm.trans ((callable_iff i s.mode).mpr hm))
  · trivial
  · trivial
  · rcases construct_status hsend ht with hst | ⟨hst, hlast⟩ <;> rw [hst]
    · trivial
    · exact ⟨⟨o, .inl rfl⟩, hlast⟩
  · rcases updateRectangle_status (s := accept o s) hl rfl hu ht with hst | ⟨-, hst⟩ | ⟨hst, hlast⟩ <;> rw [hst]
    · trivial
    · exact ⟨o, rfl⟩
    · exact ⟨⟨o, .inr (.inr rfl)⟩, hlast⟩
  · rcases updateRectangle_status (s := loadWholeSurface (accept o s)) hl rfl hu ht with
      hst | ⟨hrej, -⟩ | ⟨hst, hlast⟩
    · rw [hst]
      trivial
    · exact absurd ((wholeSurface_accepted hl o).symm.trans hrej) Bool.false_ne_true
    · rw [hst]
      exact ⟨⟨o, .inr (.inl rfl)⟩, hlast⟩

/-! ## The errors, each where it decides (rule R153) -/

/-- UPDATE_RECT in READY with a rejected rectangle only answers INVALID_ARGUMENT (rules R116, R146). -/
theorem execUpdateRect_rejected {s : State} {o : Operands} (hm : s.mode = .ready)
    (hrej : rejects s.cfg o.x.toInt o.y.toInt o.w.toInt o.h.toInt = true) :
    exec (.updateRect o) s = .next (s.completed o .invalidArgument 0) := by
  rw [execUpdateRect_eq hm]
  exact if_pos hrej

theorem endedEntries_length {ts : List Transaction} {k : Nat} (a : Answer) (hk : k < ts.length) :
    (endedEntries ts k a).length = k + 1 := by
  simp [endedEntries, okEntries, hk, Nat.min_eq_left (Nat.le_of_lt hk)]

/-- The outcome is the answer TRANSPORT_ERROR, with `n` transactions issued since `s`. -/
def FailsAfter (n : Nat) (s : State) (r : Host.Outcome State Fault Refusal) : Prop :=
  ∃ t, r = .next t ∧ t.respStatus = .transportError ∧ t.trace.length = s.trace.length + n

section
variable {s : State} {o : Operands} {k : Nat} (hok : s.AllOk k) (hka : s.answerAt k = .err)
include hok hka

theorem execConstruct_failsAfter (hm : s.mode = .uninit) (hk : k < s.cfg.initLen) :
    FailsAfter (k + 1) s (exec (.construct o) s) := by
  refine ⟨_, execConstruct_err hm hk hok hka, rfl, ?_⟩
  have hlen : k < (initTxs s.cfg (constructAddr s.cfg o)).length := by
    simpa [initTxs, Config.initLen] using hk
  simp [endedEntries_length .err hlen]

theorem execUpdateRect_failsAfter (hs : s.Ready)
    (hacc : rejects s.cfg o.x.toInt o.y.toInt o.w.toInt o.h.toInt = false)
    (hk : k < (updateTxs s o.x.toInt o.y.toInt o.w.toInt o.h.toInt).length) :
    FailsAfter (k + 1) s (exec (.updateRect o) s) := by
  obtain ⟨m, i, p, c, hexec, -⟩ :=
    updateEndsAtItsFirstFailure s o k hs hacc (by rwa [updateTxs_length] at hk) hok hka
  exact ⟨_, hexec, rfl, by simp [endedEntries_length .err hk]⟩

theorem execUpdateFull_failsAfter (hs : s.Ready) (hk : k < (updateTxs s 0 0 s.cfg.width s.cfg.height).length) :
    FailsAfter (k + 1) s (exec (.updateFull o) s) := by
  rw [execUpdateFull_eq_updateRect hs.mode]
  obtain ⟨hx, hy, hw, hh⟩ := wholeSurface_toInt hs.legal o
  exact execUpdateRect_failsAfter hok hka hs (wholeSurface_accepted hs.legal o) (by rwa [hx, hy, hw, hh])

end

theorem State.Ready.withInputs {s : State} (h : s.Ready) (ins : List Input) : { s with inputs := ins }.Ready :=
  { h with }

/-! ## What changes STATE (rule R151) -/

/-- Reset inside a command leaves UNINIT, whenever it came (rule R165). -/
@[simp] theorem abandon_mode (k : Nat) (s t : State) : (abandon k s t).mode = .uninit := by
  rcases abandon_cases k s t with ⟨-, h⟩ | ⟨-, h⟩ <;> rw [h, resetBlock_mode]

/-- Of the commands, only a CONSTRUCT that runs changes STATE. -/
theorem exec_mode {i : Instr} {s t : State} (hl : s.cfg.legal = true) (h : exec i s = .next t) :
    t.mode = s.mode ∨
    ∃ o, i = .construct o ∧ s.mode = .uninit ∧ t = sendInit s.cfg.initSeq (beginConstruct (accept o s)) := by
  rcases exec_next h with
    ⟨-, rfl⟩ | ⟨hc, ⟨o, fb, -, rfl⟩ | ⟨o, d, -, rfl⟩ | ⟨o, rfl, hsend⟩ | ⟨o, -, hu⟩ | ⟨o, -, hu⟩⟩
  · exact .inl rfl
  · exact .inl rfl
  · exact .inl rfl
  · exact .inr ⟨o, rfl, (callable_iff _ _).mp hc, hsend⟩
  · obtain ⟨hmode, -⟩ := updateRectangle_frame (s := accept o s) hl rfl rfl hu
    exact .inl hmode
  · obtain ⟨hmode, -⟩ := updateRectangle_frame (s := loadWholeSurface (accept o s)) hl rfl rfl hu
    exact .inl hmode

end Sys2Proof.Machine

/-! ## The obligations -/

section
open Sys2Proof Sys2Proof.Machine

/-- Settles O8: the word is accepted, which loads its fields, and then only answered. -/
theorem illegalWordChangesOnlyResponseAndOperands : Obligations.IllegalWordChangesOnlyResponseAndOperands := by
  intro s w rest e hacc hdec
  rw [step_accepted hacc, runWord, hdec]
  rfl

/-- Settles O14: the gate stops the one command, and a BAD_STATE of the other would say that it was stopped. -/
theorem stateGate : Obligations.StateGate := by
  intro i s hl
  refine ⟨exec_of_mode_ne, fun hm t h ht hbad => ?_⟩
  have hmeans := exec_statusMeans hl h ht
  rw [hbad] at hmeans
  exact hmeans hm

/-- Settles O15: each clause is one lemma about the command, run on the state the word was taken from. -/
theorem errorsInPriorityOrder : Obligations.ErrorsInPriorityOrder := by
  intro s w rest hacc
  have hrun := fun i => stepRunsTheDecodedCommand s w rest i hacc
  refine ⟨?illegal, ?gate, ?validation, ?updateRect, ?updateFull, ?construct⟩
  case illegal =>
    rintro ⟨e, hdec⟩
    exact ⟨_, illegalWordChangesOnlyResponseAndOperands s w rest e hacc hdec, rfl, rfl⟩
  case gate =>
    intro i hdec hm
    exact ⟨_, (hrun i hdec).trans (exec_of_mode_ne hm), rfl, rfl⟩
  case validation =>
    intro o hdec hm hrej
    exact ⟨_, (hrun _ hdec).trans (execUpdateRect_rejected hm hrej), rfl, rfl⟩
  case updateRect =>
    intro o hdec hs hrej k hk hok hka
    rw [hrun _ hdec]
    exact execUpdateRect_failsAfter (s := { s with inputs := rest }) hok hka (hs.withInputs rest) hrej hk
  case updateFull =>
    intro o hdec hs k hk hok hka
    rw [hrun _ hdec]
    exact execUpdateFull_failsAfter (s := { s with inputs := rest }) hok hka (hs.withInputs rest) hk
  case construct =>
    intro o hdec hm k hk hok hka
    rw [hrun _ hdec]
    exact execConstruct_failsAfter (s := { s with inputs := rest }) hok hka hm hk

/-- Settles O16: the eight tests are `Reject`, and INVALID_ARGUMENT says that the command was an UPDATE_RECT. -/
theorem invalidArgumentHasNoEffect : Obligations.InvalidArgumentHasNoEffect := by
  refine ⟨fun s o hm htests => ?_, fun i s t hl h ht hst => ?_⟩
  · exact execUpdateRect_rejected hm ((rejects_eq_true_iff ..).mpr htests)
  · have hmeans := exec_statusMeans hl h ht
    rwa [hst] at hmeans

/-- Settles O17: this is what TRANSPORT_ERROR says of a command that answered it. -/
theorem transportErrorEndsTheTrace : Obligations.TransportErrorEndsTheTrace := by
  intro i s t hl h ht hst
  have hmeans := exec_statusMeans hl h ht
  rwa [hst] at hmeans

/-- Settles O44: a wait keeps STATE, a reset inside a command or not leaves UNINIT, and `exec_mode` leaves
CONSTRUCT in UNINIT, whose three ends `construct_frame` gives. -/
theorem stateChangesOnlyByConstructAndReset : Obligations.StateChangesOnlyByConstructAndReset := by
  intro s t h
  obtain ⟨hl, rfl | ⟨rest, hreset, rfl⟩ | ⟨w, rest, hacc, hw⟩ | ⟨w, k, rest, u, hb, hi, -, rfl⟩⟩ := step_next h
  · exact .inl rfl
  · exact .inr (.inl ⟨hreset, rfl⟩)
  · rcases runWord_next hw with ⟨i, hdec, hexec⟩ | ⟨e, -, rfl⟩
    · rcases exec_mode (s := { s with inputs := rest }) hl hexec with hmode | ⟨o, rfl, hm, hsend⟩
      · exact .inl hmode
      · obtain ⟨hends, -⟩ := construct_frame { s with inputs := rest } o t hsend
        exact .inr (.inr ⟨w, rest, o, hacc, hdec, hm, hends⟩)
    · exact .inl rfl
  · exact .inr (.inl ⟨.inr (.inr ⟨w, k, rest, hb, hi⟩), abandon_mode ..⟩)

end

/-! PROOFS. The statements of `spec/70_reset_and_hazards.md`: reset between commands, while a command waits, and inside
a word (rule R165, U12; log 7, log 8, log 18). -/

namespace Sys2Proof.Machine

/-! ## Reset at the command port (rules R64, R165) -/

/-- Reset is taken as the next input or, at a busy port, from behind the words that wait. -/
theorem fetch_eq_reset {s : State} {rest : List Input}
    (h : s.inputs = .reset :: rest ∨ s.busy = true ∧ .reset ∈ s.inputs ∧ rest = s.inputs.erase .reset) :
    fetch s = .reset { s with inputs := rest } := by
  rcases h with hnext | ⟨hb, hr, rfl⟩
  · cases hb : s.busy <;> simp [fetch, hb, hnext]
  · simp [fetch, hb, hr]

/-- Reset taken by the port is applied in the same step. -/
theorem step_of_fetch_reset {s u : State} (hl : s.cfg.legal = true) (hf : fetch s = .reset u) :
    step s = .next (resetBlock u) := by
  simp [step, hl, hf]

/-! ## Reset inside a command (log 7) -/

@[simp] theorem answerAt_resetBlock (s : State) (j : Nat) : (resetBlock s).answerAt j = s.answerAt j := rfl

section
variable {s t : State} {es : List TraceEntry} (htrace : t.trace = s.trace ++ es)
include htrace

/-- Reset before the command would have ended keeps the first `k` of the transactions it would have issued. -/
theorem abandon_of_le {k : Nat} (hk : k ≤ es.length) :
    abandon k s t = resetBlock ((s.spent k).logged (es.take k)) := by
  simp only [abandon, htrace, List.drop_left, if_pos hk]
  rfl

/-- Reset after a command that issues fewer than `k` transactions is a reset of the state it led to. -/
theorem abandon_of_lt {k : Nat} (hk : es.length < k) : abandon k s t = resetBlock t := by
  simp only [abandon, htrace, List.drop_left, if_neg (Nat.not_le_of_lt hk)]

end

end Sys2Proof.Machine

/-! ## The obligations -/

section
open Sys2Proof Sys2Proof.Machine

/-- Settles O51: the word is run and abandoned; `abandon_frame` gives what every such reset leaves, `abandon_of_le` and
`abandon_of_lt` what depends on when it came. -/
theorem resetDuringACommandAbandonsIt : Obligations.ResetDuringACommandAbandonsIt := by
  intro s t w k rest hl hb hi hword
  have hrun : runWord w { s with inputs := rest } = .next t :=
    (step_accepted (s := { s with inputs := .command w :: rest }) ⟨hl, hb, rfl⟩).symm.trans hword
  have hstep := step_interrupted hl hb hi hrun
  obtain ⟨hcfg, hin, -, es, htrace, -, -⟩ := runWord_sends (s := { s with inputs := rest }) hl hrun
  have hcut (hk : k ≤ es.length) : (abandon k { s with inputs := rest } t).trace = s.trace ++ es.take k ∧
      (abandon k { s with inputs := rest } t).responses = s.responses ∧
      ∀ j, (abandon k { s with inputs := rest } t).answerAt j = s.answerAt (k + j) := by
    rw [abandon_of_le htrace hk]
    exact ⟨rfl, rfl, answerAt_spent s k⟩
  have hended (hk : es.length < k) : (abandon k { s with inputs := rest } t).trace = t.trace ∧
      (abandon k { s with inputs := rest } t).responses = t.responses ∧
      ∀ j, (abandon k { s with inputs := rest } t).answerAt j = t.answerAt j := by
    rw [abandon_of_lt htrace hk]
    exact ⟨rfl, rfl, answerAt_resetBlock t⟩
  obtain ⟨as, n, tr, rs, hu⟩ := abandon_frame k hcfg hin
  rw [hu] at hstep hcut hended
  exact ⟨_, es, hstep, rfl, rfl, rfl, rfl, rfl, rfl, rfl, fun _ => rfl, fun _ => rfl, rfl, rfl, htrace, hcut, hended⟩

/-- Settles O10: whichever way the port takes reset, the block is left as `resetBlock` leaves it. -/
theorem resetFromEveryState : Obligations.ResetFromEveryState := by
  intro s rest hl hreset
  exact ⟨_, step_of_fetch_reset hl (fetch_eq_reset hreset), rfl, rfl, rfl, rfl, rfl, rfl, rfl, fun _ => rfl,
    fun _ => rfl, rfl, rfl, rfl, rfl, rfl⟩

end
